-- ==== Sys2Proof/Word.lean ====
section
/-!
DEFINITION. The two word types of the IFU block. Every datum is one byte (R12, R55); a tape address is held in
the data pointer, `DP_W` = 15 bits wide (R14). Program addresses and lengths have the width `PC_W`, which the
spec leaves open (R13, R15), so they are natural numbers (Config.lean, assumption 2).
-/
namespace Sys2Proof

/-- One tape cell, program byte or channel byte: 8 bits, unsigned (R12, R17). -/
abbrev Byte := BitVec 8

/-- The data pointer `DP`, the clear index `CLR_A` and the port `tape_raddr`: `DP_W` = 15 bits, unsigned (R14). -/
abbrev TapeIndex := BitVec 15

end Sys2Proof
end

