-- ==== Sys2Proof/Syntax.lean ====
section
/-!
DEFINITION. The instruction set: one constructor per row of spec/opcode_table.json (R67, R68). No instruction has an
operand field (R69). The row `NOP` stands for 248 byte values; its constructor carries the byte, so that the
instruction determines its encoding.
-/
namespace Sys2Proof

/-- The nine behaviours of the block (R67, R70). -/
inductive Instr where
  /-- `>`, DPINC (R89). -/
  | dpInc
  /-- `<`, DPDEC (R90). -/
  | dpDec
  /-- `+`, CINC (R93). -/
  | cInc
  /-- `-`, CDEC (R94). -/
  | cDec
  /-- `.`, OUT (R102). -/
  | out
  /-- `,`, IN (R103). -/
  | inp
  /-- `[`, JZ (R110). -/
  | jz
  /-- `]`, JNZ (R111). -/
  | jnz
  /-- Any other byte, NOP (R117). -/
  | nop (byte : Byte)
  deriving DecidableEq, Repr

end Sys2Proof
end

