-- ==== Sys2Proof/WellFormed.lean ====
section
/-!
DEFINITION. Which terms of `Instr` are instructions: a `nop` carries a byte that is none of the eight opcodes (R68).
-/
namespace Sys2Proof

/-- The eight opcode bytes, in the order of the table of R67. -/
def opcodeBytes : List Byte := [0x3E, 0x3C, 0x2B, 0x2D, 0x2E, 0x2C, 0x5B, 0x5D]

/-- The instruction is one the decoder can give: a `NOP` byte is none of the eight opcodes (R67, R68). -/
def Instr.wellFormed : Instr → Bool
  | .dpInc => true
  | .dpDec => true
  | .cInc => true
  | .cDec => true
  | .out => true
  | .inp => true
  | .jz => true
  | .jnz => true
  | .nop b => !opcodeBytes.contains b

end Sys2Proof
end

