-- ==== Sys2Proof/Decode.lean ====
section
/-!
DEFINITION. The decoder, total on every byte (R70) and on every list of bytes, and the encoder. Every instruction is
exactly one byte (R65); the byte values are those of R67.
-/
namespace Sys2Proof

/-- Why a list of bytes gives no instruction. -/
inductive DecodeError where
  /-- Raised by `decode` on the empty list: there is no byte to read. Safe: no state has such a fetch. -/
  | noByte
  deriving DecidableEq, Repr

/-- The opcode map of R67: all eight bits of the byte are compared. -/
def opcodeTable : List (Byte × Instr) :=
  [(0x3E, .dpInc), (0x3C, .dpDec), (0x2B, .cInc), (0x2D, .cDec),
   (0x2E, .out), (0x2C, .inp), (0x5B, .jz), (0x5D, .jnz)]

/-- The instruction of one byte: a row of the opcode map, and `NOP` for every other byte (R67, R68). -/
def decodeByte (b : Byte) : Instr := (opcodeTable.lookup b).getD (.nop b)

/-- The instruction at the head of a byte sequence, with the bytes after it (R65, R66). -/
def decode : List Byte → Except DecodeError (Instr × List Byte)
  | [] => .error .noByte
  | b :: rest => .ok (decodeByte b, rest)

/-- The byte of an instruction (R67; a `NOP` is its own byte, R68). -/
def encodeByte : Instr → Byte
  | .dpInc => 0x3E
  | .dpDec => 0x3C
  | .cInc => 0x2B
  | .cDec => 0x2D
  | .out => 0x2E
  | .inp => 0x2C
  | .jz => 0x5B
  | .jnz => 0x5D
  | .nop b => b

/-- The bytes of an instruction: exactly one (R65). -/
def encode (i : Instr) : List Byte := [encodeByte i]

/-- `n` bytes of the number `w`, the least significant first. -/
def tableBytes : Nat → Nat → List Byte
  | 0, _ => []
  | n + 1, w => BitVec.ofNat 8 w :: tableBytes n (w / 256)

/-- The bytes of an opcode-table word of `nbits` bits: at least the one byte of the longest instruction (R65), its
bits above `nbits` zero. -/
def tableWord (nbits w : Nat) : List Byte := tableBytes (max 1 ((nbits + 7) / 8)) w

/-- The instruction whose bits, numbered as the opcode table numbers them, are `w`. -/
def decodeTableWord (nbits w : Nat) : Option Instr :=
  match decode (tableWord nbits w) with
  | .ok (i, []) => some i
  | .ok (_, _ :: _) => none
  | .error _ => none

end Sys2Proof
end

