-- ==== Sys2Proof/Config.lean ====
section
/-!
DEFINITION. What is fixed for this hardware (R11 to R15), the input signals of one step or cycle, and the FREE
VALUES: opaque constants for everything the spec leaves open. Nothing in Lean can evaluate a free value, so a
theorem that mentions one holds for every value of it.
-/
namespace Sys2Proof

/-- The answer of the input channel to one request: a byte or end-of-input (R98). -/
inductive InAnswer where
  | byte (v : Byte)
  | eof
  deriving DecidableEq, Repr

/-- The input signals of the block as the host drives them at one step of the instruction-level model (at one
clock cycle of the cycle-level machine): the `in` rows of the signal table of 10_state.md §10, `clk` apart.
`stepFirst` is no signal: it is the outcome of the race of R133 at this boundary, true when an enabled
instruction or DONE step is taken before the abort step. The host chooses every field, under no law. -/
structure HostInput where
  /-- `rst`: synchronous reset, active high (R142). -/
  rst : Bool
  /-- `start`: begin a run (R74). -/
  start : Bool
  /-- `abort`: end the run, level-sensitive (R127). -/
  abort : Bool
  /-- The race of R133: true when the other enabled step goes before the abort step. -/
  stepFirst : Bool
  /-- `prog_we`: write a program byte (R49). -/
  progWe : Bool
  /-- `prog_waddr`: the program address written (R49). -/
  progWaddr : Nat
  /-- `prog_wdata`: the program byte written (R49). -/
  progWdata : Byte
  /-- `plen_we`: write the program length (R49). -/
  plenWe : Bool
  /-- `plen_wdata`: the program length written (R49). -/
  plenWdata : Nat
  /-- `tape_raddr`: the tape address the host reads (R54). -/
  tapeRaddr : TapeIndex
  /-- `out_ready`: the sink takes the byte offered (R100). -/
  outReady : Bool
  /-- `in_valid`: `in_data` is the answer (R101). -/
  inValid : Bool
  /-- `in_data`: the answer byte (R101). -/
  inData : Byte
  /-- `in_eof`: the answer is end-of-input (R101). -/
  inEof : Bool
  deriving DecidableEq, Repr, Inhabited

namespace Config

/-- `L`, the number of tape cells (R11). -/
def tapeLen : Nat := 30000

/-- `PROG_MAX`, the capacity of the program store in bytes: left OPEN by R13, so a free constant. -/
opaque progMax : Nat

/-- `PC_W = max(1, ceil(log2(PROG_MAX + 1)))`: the width of `PC`, `PLEN` and `DEPTH` (R15). -/
def pcWidth : Nat := max 1 (Nat.clog 2 (progMax + 1))

/-- The width of `SCAN_J`: one bit more than `PC`, for the value -1 and for `PLEN` (R39, R109). -/
def scanJWidth : Nat := pcWidth + 1

/-- `DP_W`, the width of `DP` (R14). -/
def dpWidth : Nat := 15

/-- What a tape address that the memory list does not name reads as: the zero of the start clear (R29). -/
def blankCell : Byte := 0

/-- FREE VALUE: the program byte at an address nothing has written since power-up (R50; assumption 5). -/
opaque unwrittenProg : Nat → Byte

/-- FREE VALUE: cell `a` of the tape as the host port shows it between the reset numbered `k` and the next start
(R30, R144; assumption 6). -/
opaque tapeAfterReset : Nat → Nat → Byte

/-- FREE VALUE: `tape_rdata` at step `n` while a run is in progress (R54; assumption 7). -/
opaque tapeRdataRunning : Nat → Byte

/-- FREE VALUE: `pc_out` at step `n` while a run is in progress (R42; assumption 7). -/
opaque pcOutRunning : Nat → BitVec pcWidth

/-- FREE VALUE: `dp_out` at step `n` while a run is in progress (R42; assumption 7). -/
opaque dpOutRunning : Nat → TapeIndex

/-- FREE VALUE: `out_data` at step `n` in a cycle with `out_valid = 0` (R100; assumption 7). -/
opaque outDataIdle : Nat → Byte

/-- FREE VALUE: the transient register `IR` outside its live time, after step `n` (R39; assumption 8). -/
opaque irIdle : Nat → Byte

/-- FREE VALUE: the transient register `SCAN_J` outside its live time, after step `n` (R39; assumption 8). -/
opaque scanJIdle : Nat → BitVec scanJWidth

/-- FREE VALUE: the transient register `DEPTH` outside its live time, after step `n` (R39; assumption 8). -/
opaque depthIdle : Nat → BitVec pcWidth

/-- FREE VALUE: the transient register `CLR_A` outside its live time, after step `n` (R39; assumption 8). -/
opaque clrAIdle : Nat → TapeIndex

/-- FREE VALUE: the host's input signals at step `n` where the state's script names none; this is also the open
parameter `INPUT` of D26 (R99; assumption 3). -/
opaque hostInput : Nat → HostInput

end Config

end Sys2Proof
end

