-- ==== Sys2Proof/Machine/State.lean ====
section
/-!
DEFINITION. The state of the block as plain data: the architectural state of R20, the transient registers of R39, the
model's record of the channel transfers (R152), and the host's input signals. Its value right after reset.
-/
namespace Sys2Proof.Machine

/-- The values of `STATE` (R32). The codes 6 and 7 are reserved and never produced, so no constructor has them. -/
inductive RunState where
  /-- 0: no run has started since `rst`. -/
  | idle
  /-- 1: a run is in progress. -/
  | running
  /-- 2: the run ended at the end of the program. -/
  | done
  /-- 3: the run ended on the `abort` input. -/
  | aborted
  /-- 4: the run ended on `OutOfBounds`. -/
  | faultOob
  /-- 5: the run ended on `UnmatchedBracket`. -/
  | faultUnmatched
  deriving DecidableEq, Repr

/-- The phases of the cycle-level machine (R85). -/
inductive Phase where
  | halt
  | clear
  | fetch
  | exec
  | scanF
  | scanB
  | waitOut
  | waitIn
  deriving DecidableEq, Repr

/-- The exceptions an instruction can raise (R119). -/
inductive Cause where
  | outOfBounds
  | unmatchedBracket
  deriving DecidableEq, Repr

/-- The tape's three clients (R51). -/
inductive TapeClient where
  | startClear
  | execute
  | hostRead
  deriving DecidableEq, Repr

/-- The program store's three clients (R51). -/
inductive ProgClient where
  | fetch
  | matcher
  | loadPort
  deriving DecidableEq, Repr

/-- A memory as (address, byte) pairs, in canonical form when `Memory.wf` holds. -/
abbrev Memory := List Host.Cell

/-- The canonical form: addresses strictly rising, and no entry equal to what an unlisted address reads as (`blank`;
`none` where an unlisted address has no value of its own). -/
abbrev Memory.wf (blank : Option Byte) (m : Memory) : Prop :=
  m.Pairwise (fun x y => x.1 < y.1) ∧ ∀ c ∈ m, some c.2 ≠ blank

/-- The whole state of the block, of the channels' record and of the host's inputs. -/
structure State where
  /-- `TAPE`: an unlisted address reads as `Config.blankCell` (R29). -/
  tape : Memory
  /-- `DP`, the data pointer (R22). -/
  dp : TapeIndex
  /-- `PC`, the program counter: at a boundary, the address of the next instruction (R24). -/
  pc : Nat
  /-- `PROG`, the program store: an unlisted address has never been written (R27, R50). -/
  prog : Memory
  /-- `PLEN`, the program length (R28). -/
  plen : Nat
  /-- `STATE` (R32). -/
  state : RunState
  /-- `PHASE`, of the cycle-level machine (R85); at an instruction boundary of a run it is FETCH. -/
  phase : Phase
  /-- `IR`, the fetched byte (R39); live in one instruction. -/
  ir : Byte
  /-- `SCAN_J`, the matcher's index, from -1 to `PLEN` in a scan (R39, R109): the signed number in its `PC_W + 1` bits. -/
  scanJ : Int
  /-- `DEPTH`, the nesting counter (R40, R108), `PC_W` bits (R15); live in one scan. -/
  depth : Nat
  /-- `CLR_A`, the start clear's index (R39); live in the start clear. -/
  clrA : TapeIndex
  /-- The model's own: the number of the reset since which the tape contents are unspecified, `none` from the next
  start on (R30). -/
  tapeUnknown : Option Nat
  /-- The model's own: the bytes the output channel took in this run, the first one first (R104, R152). -/
  outBytes : List Byte
  /-- The model's own: the number of input answers this run consumed (R104, R152). -/
  inAnswers : Nat
  /-- The model's own: the host's input signals at this step and the ones after it. -/
  script : List HostInput
  /-- The model's own: the number of steps taken, which a free value is applied to. -/
  tick : Nat
  deriving DecidableEq, Repr

/-- Why a step stops the model. The block's own faults are no stop: they are the terminal states FAULT_OOB and
FAULT_UNMATCHED (R123), which are next states. -/
inductive Fault where
  /-- Raised by every access to the tape (`atCell`, the start clear) at an address of `L` or above, which does not
  exist (R44, R45, R46). Safe: the model stops, and no run from reset reaches such a state (R23). -/
  | tapeAddress
  deriving DecidableEq, Repr

/-- Why the model refuses an instruction. -/
inductive Refusal where
  /-- Raised only by an arm of `exec` whose instruction has no meaning yet; there is none. Safe: the model stops. -/
  | notModelled (mnemonic : String)
  deriving DecidableEq, Repr

/-- The block right after the reset that follows power-up (R142): `STATE = IDLE`, `PHASE = HALT`, `PC`, `DP` and `PLEN`
zero, no program byte written, the tape unspecified until `start` (R30). The transient registers, which R142 leaves
unspecified, and the model's own fields take the values of assumption 9. -/
def State.reset : State where
  tape := []
  dp := 0
  pc := 0
  prog := []
  plen := 0
  state := .idle
  phase := .halt
  ir := 0
  scanJ := 0
  depth := 0
  clrA := 0
  tapeUnknown := some 0
  outBytes := []
  inAnswers := 0
  script := []
  tick := 0

end Sys2Proof.Machine
end

