-- ==== Sys2Proof/Machine/Ops.lean ====
section
/-!
DEFINITION. The named operations over memory, registers and inputs, and the ends of an instruction: completing it,
taking an exception, ending the run.
-/
namespace Sys2Proof.Machine

/-! ### Memory lists -/

/-- The byte listed at an address. -/
def Memory.lookup : Memory → Nat → Option Byte
  | [], _ => none
  | (k, b) :: m, a => if k = a then some b else Memory.lookup m a

/-- List a byte at an address, replacing what stood there and keeping the addresses rising. -/
def Memory.insert : Memory → Nat → Byte → Memory
  | [], a, b => [(a, b)]
  | (k, c) :: m, a, b =>
    if a < k then (a, b) :: (k, c) :: m
    else if a = k then (a, b) :: m
    else (k, c) :: Memory.insert m a b

/-- List nothing at an address. -/
def Memory.erase (m : Memory) (a : Nat) : Memory := m.filter (fun c => c.1 ≠ a)

/-- Write a byte into a memory whose unlisted addresses read as `blank`: writing that value lists nothing. -/
def Memory.store (blank : Option Byte) (m : Memory) (a : Nat) (b : Byte) : Memory :=
  if some b = blank then m.erase a else m.insert a b

/-! ### Tape and program store -/

/-- What tape cell `a` reads as (`MemRead(a, 1)` for `a < L`, R45). -/
def State.cell (s : State) (a : Nat) : Byte := (s.tape.lookup a).getD Config.blankCell

/-- `MemWrite(a, 1, v)`, for `a < L` (R46). -/
def State.setCell (s : State) (a : Nat) (v : Byte) : State :=
  { s with tape := s.tape.store (some Config.blankCell) a v }

/-- `ProgRead(i)` (R48): the byte last written, or a free value where nothing has been written (R50). -/
def State.progByte (s : State) (i : Nat) : Byte := (s.prog.lookup i).getD (Config.unwrittenProg i)

/-- Write one program byte: the load port's operation once it is accepted (R49). -/
def State.setProg (s : State) (i : Nat) (v : Byte) : State :=
  { s with prog := s.prog.store none i v }

/-! ### The host's inputs -/

/-- The host's input signals `k` steps from now: the script's, and a free value where the script has ended. -/
def State.inputAt (s : State) (k : Nat) : HostInput := (s.script[k]?).getD (Config.hostInput (s.tick + k))

/-- The host's input signals at this step. -/
def State.now (s : State) : HostInput := s.inputAt 0

/-- The input channel's answer in this cycle, if any: `in_valid` goes before `in_eof` (R101). -/
def State.answer (s : State) : Option InAnswer :=
  if s.now.inValid then some (.byte s.now.inData) else if s.now.inEof then some .eof else none

/-- The same machine under another host: the input signals from this step on are these. -/
def State.withScript (s : State) (l : List HostInput) : State := { s with script := l }

/-- The same machine with another program store. -/
def State.withProg (s : State) (m : Memory) : State := { s with prog := m }

/-! ### Outcomes -/

/-- Change the next state of an outcome; a fault or a refusal stays. -/
def mapNext (f : State → State) : Host.Outcome State Fault Refusal → Host.Outcome State Fault Refusal
  | .next s => .next (f s)
  | .fault r => .fault r
  | .refused r => .refused r

/-! ### The ends of an instruction -/

/-- The instruction completes and the run goes on at the byte after it: `PC = p + 1` (R78, R81). -/
def State.retire (s : State) : State := { s with pc := s.pc + 1 }

/-- The terminal state of an exception (R119). -/
def Cause.code : Cause → RunState
  | .outOfBounds => .faultOob
  | .unmatchedBracket => .faultUnmatched

/-- The run ends in a terminal state, with nothing else changed: DONE (R77) and ABORTED (R128). -/
def State.haltRun (s : State) (e : RunState) : State := { s with state := e, phase := .halt }

/-- TAKING AN EXCEPTION: the one operation by which an instruction raises a fault (R120, R121, R123, R124). `STATE`
becomes the fault's code, `PHASE` HALT, `PC` the pre-advanced `p + 1`; `DP`, `TAPE` and the channels keep what the
instruction found. There is no handler, no vector and no saved-state register, and no return from a fault: only
`start` and `rst` leave the terminal state (R123, R126). -/
def State.raiseFault (s : State) (c : Cause) : State := s.retire.haltRun c.code

end Sys2Proof.Machine
end

