-- ==== Sys2Proof/Machine/Operands.lean ====
section
/-!
DEFINITION. The operands. No instruction has an operand field (R69): the one memory operand is the current cell,
tape cell `DP`, and every access to the tape goes through `atCell` (R44).
-/
namespace Sys2Proof.Machine

/-- An access to the current cell: it exists when `DP < L` (R45, R46); at an address of `L` or above the model stops. -/
def State.atCell (s : State) (k : Host.Outcome State Fault Refusal) : Host.Outcome State Fault Refusal :=
  if s.dp.toNat < Config.tapeLen then k else .fault .tapeAddress

/-- The value of the current cell. -/
def State.current (s : State) : Byte := s.cell s.dp.toNat

/-- Read the current cell and go on with its value: `MemRead(DP, 1)` (R45). -/
def State.onCell (s : State) (k : Byte → Host.Outcome State Fault Refusal) : Host.Outcome State Fault Refusal :=
  s.atCell (k s.current)

/-- The state with the current cell written: `MemWrite(DP, 1, v)` (R46). -/
def State.setCurrent (s : State) (v : Byte) : State := s.setCell s.dp.toNat v

end Sys2Proof.Machine
end

