-- ==== Sys2Proof/Machine/CellArith.lean ====
section
/-!
DEFINITION. The cell arithmetic `+` and `-`: one indivisible read-modify-write of the current cell, modulo 256
(42_cell_arith.md, R53, R95). No flag is written and none exists (R31).
-/
namespace Sys2Proof.Machine

/-- `+` (CINC): the current cell becomes `(v + 1) mod 256` (R93). -/
def execCInc (s : State) : Host.Outcome State Fault Refusal :=
  s.onCell fun v => .next (s.setCurrent (v + 1)).retire

/-- `-` (CDEC): the current cell becomes `(v - 1) mod 256` (R94). -/
def execCDec (s : State) : Host.Outcome State Fault Refusal :=
  s.onCell fun v => .next (s.setCurrent (v - 1)).retire

end Sys2Proof.Machine
end

