-- ==== Sys2Proof/Machine/ChannelIo.lean ====
section
/-!
DEFINITION. The channel instructions `.` and `,` (43_io.md). Each completes only when the channel does its part; until then
the run stays at the boundary before the instruction, with nothing changed (R82, R140).
-/
namespace Sys2Proof.Machine

/-- `.` (OUT): when the sink takes the byte, the current cell's value is handed to the output channel (R97, R102);
while `out_ready = 0` the run waits. -/
def execOut (s : State) : Host.Outcome State Fault Refusal :=
  s.onCell fun v =>
    if s.now.outReady then .next { s.retire with outBytes := s.outBytes ++ [v] } else .next s

/-- `,` (IN): a byte is written to the current cell, end-of-input leaves it unchanged and is no error (R98, R103);
while the channel gives no answer the run waits. -/
def execIn (s : State) : Host.Outcome State Fault Refusal :=
  match s.answer with
  | none => .next s
  | some .eof => .next { s.retire with inAnswers := s.inAnswers + 1 }
  | some (.byte v) => s.atCell (.next { (s.setCurrent v).retire with inAnswers := s.inAnswers + 1 })

end Sys2Proof.Machine
end

