-- ==== Sys2Proof/Machine/Flags.lean ====
section
/-!
DEFINITION. The block has no flags (R31). What stands here is the one condition an instruction tests, and the status
word the host reads (R32, R34, R36).
-/
namespace Sys2Proof.Machine

/-- The condition of `[` and `]`: the value of the current cell is zero (R31). -/
def isZero (v : Byte) : Bool := v == 0

/-- The 3-bit code of `STATE` (R32). -/
def RunState.bits : RunState → BitVec 3
  | .idle => 0
  | .running => 1
  | .done => 2
  | .aborted => 3
  | .faultOob => 4
  | .faultUnmatched => 5

/-- The 3-bit code of `PHASE` (R85). -/
def Phase.bits : Phase → BitVec 3
  | .halt => 0
  | .clear => 1
  | .fetch => 2
  | .exec => 3
  | .scanF => 4
  | .scanB => 5
  | .waitOut => 6
  | .waitIn => 7

/-- `STATUS.EXIT`: 1 after a fault, 0 otherwise (R36). -/
def RunState.exitBit : RunState → BitVec 1
  | .idle => 0
  | .running => 0
  | .done => 0
  | .aborted => 0
  | .faultOob => 1
  | .faultUnmatched => 1

/-- The terminal states (R33). -/
def RunState.terminal : RunState → Bool
  | .idle => false
  | .running => false
  | .done => true
  | .aborted => true
  | .faultOob => true
  | .faultUnmatched => true

/-- The `STATUS` word on the port `status`: `STATE` in bits 2:0, `EXIT` in bit 3, bits 7:4 zero (R34). -/
def State.status (s : State) : BitVec 8 := (0 : BitVec 4) ++ s.state.exitBit ++ s.state.bits

end Sys2Proof.Machine
end

