-- ==== Sys2Proof/Machine/Jump.lean ====
section
/-!
DEFINITION. The jump instructions `[` and `]` and the bracket-jump matcher (44_jump.md). One pass of a scan's loop is a
function of its own, which the instruction-level scan and the cycle-level matcher share.
-/
namespace Sys2Proof.Machine

/-- What one pass of a scan's loop does: the index has left the program, the bracket at the index is the match, or the
scan goes on with a new index and counter. -/
inductive ScanStep where
  | offEnd
  | found
  | more (j : Int) (d : Nat)
  deriving DecidableEq, Repr

/-- How a scan ends, with the index and the counter it leaves. -/
inductive ScanEnd where
  | offEnd (j : Int) (d : Nat)
  | found (j : Int)
  deriving DecidableEq, Repr

/-- The byte `[` (R67). -/
def openByte : Byte := 0x5B

/-- The byte `]` (R67). -/
def closeByte : Byte := 0x5D

/-- The nesting counter after byte `b`: `up` counts up, `down` counts down, every other byte is passed over (R107). -/
def nest (up down b : Byte) (d : Nat) : Nat :=
  if b = up then d + 1 else if b = down then d - 1 else d

/-- One pass of the forward scan's loop (R105). -/
def scanFwdStep (s : State) (j : Int) (d : Nat) : ScanStep :=
  if (s.plen : Int) ≤ j then .offEnd
  else
    let d' := nest openByte closeByte (s.progByte j.toNat) d
    if d' = 0 then .found else .more (j + 1) d'

/-- One pass of the backward scan's loop (R106). -/
def scanBwdStep (s : State) (j : Int) (d : Nat) : ScanStep :=
  if j < 0 then .offEnd
  else
    let d' := nest closeByte openByte (s.progByte j.toNat) d
    if d' = 0 then .found else .more (j - 1) d'

/-- A scan: passes of its loop until one ends it. The first argument bounds the number of passes; `scanFwd` and
`scanBwd` give it so that it is never used up before the index has left the program. -/
def scanLoop (pass : Int → Nat → ScanStep) : Nat → Int → Nat → ScanEnd
  | 0, j, d => .offEnd j d
  | n + 1, j, d =>
    match pass j d with
    | .offEnd => .offEnd j d
    | .found => .found j
    | .more j' d' => scanLoop pass n j' d'

/-- `ScanFwd(p)`: from just after the `[` at `p`, with the counter at 1 (R105). -/
def scanFwd (s : State) (p : Nat) : ScanEnd := scanLoop (scanFwdStep s) (s.plen + 1) ((p : Int) + 1) 1

/-- `ScanBwd(p)`: from just before the `]` at `p`, with the counter at 1 (R106). -/
def scanBwd (s : State) (p : Nat) : ScanEnd := scanLoop (scanBwdStep s) (p + 1) ((p : Int) - 1) 1

/-- The jump is taken: `PC` becomes the address after the match at `j`, where the counter has reached 0 (R105, R106). -/
def State.jumpPast (s : State) (j : Int) : State := { s with pc := (j + 1).toNat, scanJ := j, depth := 0 }

/-- The end of a taken jump's scan: the jump, or `UnmatchedBracket` (R110, R111, R121). -/
def State.endScan (s : State) : ScanEnd → State
  | .offEnd j d => ({ s with scanJ := j, depth := d }).raiseFault .unmatchedBracket
  | .found j => s.jumpPast j

/-- `[` (JZ): falls through when the current cell is not zero; else jumps past the matching `]` (R110). -/
def execJz (s : State) : Host.Outcome State Fault Refusal :=
  s.onCell fun v => if isZero v then .next (s.endScan (scanFwd s s.pc)) else .next s.retire

/-- `]` (JNZ): falls through when the current cell is zero; else jumps past the matching `[` (R111). -/
def execJnz (s : State) : Host.Outcome State Fault Refusal :=
  s.onCell fun v => if isZero v then .next s.retire else .next (s.endScan (scanBwd s s.pc))

end Sys2Proof.Machine
end

