-- ==== Sys2Proof/Machine/Nop.lean ====
section
/-!
DEFINITION. The no-operation bytes (45_nop.md): all 248 values have the one rule R117 (R118).
-/
namespace Sys2Proof.Machine

/-- Any byte that is no opcode (NOP): only `PC` advances (R117). -/
def execNop (_byte : Byte) (s : State) : Host.Outcome State Fault Refusal := .next s.retire

end Sys2Proof.Machine
end

