-- ==== Sys2Proof/Machine/Pointer.lean ====
section
/-!
DEFINITION. The data-pointer instructions `>` and `<` (41_pointer.md). The pointer neither wraps nor saturates (R91), and
neither instruction touches the tape (R47). Each meaning starts at the boundary before the instruction: `PC = p`.
-/
namespace Sys2Proof.Machine

/-- `>` (DPINC): `OutOfBounds` when `DP + 1 ≥ L`, with `DP` not written; else `DP` moves one up (R89). -/
def execDpInc (s : State) : Host.Outcome State Fault Refusal :=
  if Config.tapeLen ≤ s.dp.toNat + 1 then .next (s.raiseFault .outOfBounds)
  else .next { s.retire with dp := s.dp + 1 }

/-- `<` (DPDEC): `OutOfBounds` when `DP = 0`, with `DP` not written; else `DP` moves one down (R90). -/
def execDpDec (s : State) : Host.Outcome State Fault Refusal :=
  if s.dp = 0 then .next (s.raiseFault .outOfBounds)
  else .next { s.retire with dp := s.dp - 1 }

end Sys2Proof.Machine
end

