-- ==== Sys2Proof/Machine/Dispatch.lean ====
section
/-!
DEFINITION. The dispatch of R79: one arm per behaviour, in the order of the opcode table.
-/
namespace Sys2Proof.Machine

/-- One instruction, from the boundary before it (`PC = p`) to the boundary after it (R76, R80). -/
def exec (i : Instr) (s : State) : Host.Outcome State Fault Refusal :=
  match i with
  | .dpInc => Sys2Proof.Machine.execDpInc s
  | .dpDec => Sys2Proof.Machine.execDpDec s
  | .cInc => Sys2Proof.Machine.execCInc s
  | .cDec => Sys2Proof.Machine.execCDec s
  | .out => Sys2Proof.Machine.execOut s
  | .inp => Sys2Proof.Machine.execIn s
  | .jz => Sys2Proof.Machine.execJz s
  | .jnz => Sys2Proof.Machine.execJnz s
  | .nop b => Sys2Proof.Machine.execNop b s

end Sys2Proof.Machine
end

