-- ==== Sys2Proof/Machine/RunControl.lean ====
section
/-!
DEFINITION. What surrounds the instructions at the instruction level: reset (R142), the load port (R49), start (R74,
R145), fetch and dispatch (R76 to R79), the end of the program (R77), the abort (R128, R133), and the boundary between two
steps.
-/
namespace Sys2Proof.Machine

/-! ### What the host does outside a run -/

/-- `rst`: the values of R142. The tape and the program store are not written; from here to the next start the
host port shows any value for the tape (R30, R144). -/
def State.resetBlock (s : State) : State :=
  { s with state := .idle, phase := .halt, pc := 0, dp := 0, plen := 0, tapeUnknown := some (s.tick + 1) }

/-- The load port's write of `PROG`: ignored at an address of `PROG_MAX` or above (R49). -/
def State.loadProg (s : State) : State :=
  if s.now.progWe ∧ s.now.progWaddr < Config.progMax then s.setProg s.now.progWaddr s.now.progWdata else s

/-- The load port's write of `PLEN`: ignored when the value is above `PROG_MAX` (R28, R49). -/
def State.loadPlen (s : State) : State :=
  if s.now.plenWe ∧ s.now.plenWdata ≤ Config.progMax then { s with plen := s.now.plenWdata } else s

/-- `start` is taken: `STATE = RUNNING`, and the record of this run's channel transfers is empty (R74, R152). -/
def State.takeStart (s : State) : State :=
  { s with state := .running, tapeUnknown := none, outBytes := [], inAnswers := 0 }

/-- The end of the start sequence: both cursors at 0, and the first fetch next (R145). -/
def State.enterRun (s : State) : State := { s with dp := 0, pc := 0, phase := .fetch }

/-- The whole start sequence: every tape cell, `DP` and `PC` are 0 (R74, R145). -/
def State.startRun (s : State) : State := { s.takeStart with tape := [] }.enterRun

/-- One step while `STATE ≠ RUNNING`: `start` begins a run, and a load write in that cycle is ignored; without `start`
the load port writes (R49, R74). -/
def State.hostStep (s : State) : State := if s.now.start then s.startRun else s.loadProg.loadPlen

/-! ### One step of a run -/

/-- The instruction at `PC` (R78, R79). -/
def State.fetched (s : State) : Instr := decodeByte (s.progByte s.pc)

/-- The instruction at `PC` is a `.` or `,` whose channel does not do its part in this cycle (R82). -/
def State.waits (s : State) : Bool :=
  decide (s.pc < s.plen) &&
    match s.fetched with
    | .out => !s.now.outReady
    | .inp => s.answer.isNone
    | .dpInc => false
    | .dpDec => false
    | .cInc => false
    | .cDec => false
    | .jz => false
    | .jnz => false
    | .nop _ => false

/-- The abort step is the one taken at this boundary: `abort = 1`, and no other step goes first (R128, R133). -/
def State.abortTaken (s : State) : Bool := s.now.abort && (!s.now.stepFirst || s.waits)

/-- `IR` holds the byte at `PC` (R78). -/
def State.latchIr (s : State) : State := { s with ir := s.progByte s.pc }

/-- One step of a run, at an instruction boundary: the abort step (R128), the DONE step (R77), or the fetched
instruction (R76). -/
def runStep (s : State) : Host.Outcome State Fault Refusal :=
  if s.abortTaken then .next (s.haltRun .aborted)
  else if s.plen ≤ s.pc then .next (s.haltRun .done)
  else exec s.fetched s.latchIr

/-! ### The boundary -/

/-- The host's signals of this step are past. -/
def State.tickOver (s : State) : State := { s with script := s.script.tail, tick := s.tick + 1 }

/-- The transient registers outside their live time: any value their bits can hold, `SCAN_J` read as a signed number
(R15, R39, R40, R109). -/
def State.forget (s : State) : State :=
  { s with ir := Config.irIdle s.tick, scanJ := (Config.scanJIdle s.tick).toInt,
           depth := (Config.depthIdle s.tick).toNat, clrA := Config.clrAIdle s.tick }

/-- `PHASE` where no instruction is partly done: FETCH in a run, HALT outside (R85). -/
def boundaryPhase (e : RunState) : Phase := if e = .running then .fetch else .halt

/-- `PHASE` as it is at a boundary. -/
def State.rephase (s : State) : State := { s with phase := boundaryPhase s.state }

/-- What every step does at its end, beside its own effect. -/
def State.boundary (s : State) : State := s.rephase.forget.tickOver

/-- One step of the instruction-level machine: `rst` first (R142), then a step of the run (R75), or the host's step
outside a run. -/
def machineStep (s : State) : Host.Outcome State Fault Refusal :=
  if s.now.rst then .next s.resetBlock.boundary
  else if s.state = .running then mapNext State.boundary (runStep s)
  else .next s.hostStep.boundary

/-! ### Placing an instruction where the next step fetches it -/

/-- Input signals under which a run goes on: no reset, start, abort or load, a sink that takes a byte and a channel
that answers end-of-input. -/
def freeRunInput : HostInput where
  rst := false
  start := false
  abort := false
  stepFirst := false
  progWe := false
  progWaddr := 0
  progWdata := 0
  plenWe := false
  plenWdata := 0
  tapeRaddr := 0
  outReady := true
  inValid := false
  inData := 0
  inEof := true

/-- Program bytes written at consecutive addresses. -/
def State.placeBytes (s : State) : Nat → List Byte → State
  | _, [] => s
  | a, b :: rest => (s.setProg a b).placeBytes (a + 1) rest

/-- A run is in progress at the boundary before these bytes: they stand in the program store at `PC`, `PLEN` reaches past
them, and the next step's inputs let the run go on. -/
def State.placeForFetch (s : State) (bytes : List Byte) : State :=
  { s.placeBytes s.pc bytes with
    plen := max s.plen (s.pc + bytes.length), state := .running, phase := .fetch, tapeUnknown := none,
    script := freeRunInput :: s.script }

end Sys2Proof.Machine
end

