-- ==== Sys2Proof/Machine/Step.lean ====
section
/-!
DEFINITION. The step of the machine, and an instruction placed where that step fetches it.
-/
namespace Sys2Proof.Machine

/-- One architectural step (R76), one abort or DONE step, or one step of the host outside a run. -/
def step (s : State) : Host.Outcome State Fault Refusal := machineStep s

/-- `s` in a run, at the boundary before the instruction of the opcode-table word `w` (assumption 10). -/
def State.withFetchWord (s : State) (nbits w : Nat) : State := s.placeForFetch (tableWord nbits w)

end Sys2Proof.Machine
end

