-- ==== Sys2Proof/Machine/Cycle.lean ====
section
/-!
DEFINITION. The cycle-level machine of 40_fetch_engine.md §3: the program-counter state machine with its phases (R85, R86), the
start clear, the matcher one byte per cycle, the channel waits, and the arbiter of the two stores (R51, R52). It works on
the same state as the instruction-level step and shares the instructions' meanings; `PC` keeps `p` until the instruction
commits (R85). `step` does not use it: it is the refinement R87 speaks of.
-/
namespace Sys2Proof.Machine

/-! ### The arbiter -/

/-- The client that owns the tape in this cycle, chosen by `STATE` and `PHASE` alone (R52). -/
def State.tapeOwner (s : State) : TapeClient :=
  if s.state ≠ .running then .hostRead else if s.phase = .clear then .startClear else .execute

/-- The client that owns the program store in this cycle (R52). DEDUCED, safe: none in the phases of a run for which R52
names no owner (assumption 13). -/
def State.progOwner (s : State) : Option ProgClient :=
  if s.state ≠ .running then some .loadPort
  else if s.phase = .fetch then some .fetch
  else if s.phase = .scanF ∨ s.phase = .scanB then some .matcher
  else none

/-! ### One cycle in each phase -/

/-- The next phase. -/
def State.toPhase (s : State) (p : Phase) : State := { s with phase := p }

/-- `start` is taken: the clear begins at the first cell (R74, R85). -/
def State.enterClear (s : State) : State := { s.takeStart with phase := .clear, clrA := 0 }

/-- The clear sets one cell to 0 and goes to the next (R85). -/
def State.clearOne (s : State) : State := { s.setCell s.clrA.toNat 0 with clrA := s.clrA + 1 }

/-- A taken jump's scan begins, with `DEPTH` 1, at this index (R105, R106). -/
def State.enterScan (s : State) (scan : Phase) (first : Int) : State :=
  { s with phase := scan, depth := 1, scanJ := first }

/-- The scan goes on with this index and counter (R105, R106). -/
def State.scanOn (s : State) (j : Int) (d : Nat) : State := { s with scanJ := j, depth := d }

/-- Phase HALT: nothing but what the host does; `start` enters CLEAR with its index at the first cell (R74, R85). -/
def cycleHalt (s : State) : State :=
  if s.state = .running then s
  else if s.now.start then s.enterClear
  else s.loadProg.loadPlen

/-- Phase CLEAR: one cell is set to 0; after the last one the cursors are set to 0 (R85, R145). `abort` is not
sampled (R86). -/
def cycleClear (s : State) : Host.Outcome State Fault Refusal :=
  if s.clrA.toNat < Config.tapeLen then
    if s.clrA.toNat + 1 = Config.tapeLen then .next s.clearOne.enterRun else .next s.clearOne
  else .fault .tapeAddress

/-- Phase FETCH: DONE at the end of the program, else the byte at `PC` goes to `IR` (R77, R78, R85). -/
def cycleFetch (s : State) : State :=
  if s.plen ≤ s.pc then s.haltRun .done else s.latchIr.toPhase .exec

/-- An instruction commits in this cycle, and the next phase is FETCH, or HALT after a fault. -/
def commit (o : Host.Outcome State Fault Refusal) : Host.Outcome State Fault Refusal := mapNext State.rephase o

/-- A jump in phase EXEC: not taken it commits, taken it enters its scan with `DEPTH` 1 and the first index (R85, R105,
R106). -/
def cycleJump (s : State) (taken : Bool) (scan : Phase) (first : Int) : State :=
  if taken then s.enterScan scan first else s.retire.rephase

/-- Phase EXEC: the instruction in `IR` commits, waits on its channel, or enters its scan (R85). -/
def cycleExec (s : State) : Host.Outcome State Fault Refusal :=
  match decodeByte s.ir with
  | .dpInc => commit (exec .dpInc s)
  | .dpDec => commit (exec .dpDec s)
  | .cInc => commit (exec .cInc s)
  | .cDec => commit (exec .cDec s)
  | .out => .next (s.toPhase .waitOut)
  | .inp => .next (s.toPhase .waitIn)
  | .jz => s.onCell fun v => .next (cycleJump s (isZero v) .scanF ((s.pc : Int) + 1))
  | .jnz => s.onCell fun v => .next (cycleJump s (!isZero v) .scanB ((s.pc : Int) - 1))
  | .nop b => commit (exec (.nop b) s)

/-- Phases SCAN_F and SCAN_B: one pass of the scan's loop (R85, R105, R106). -/
def cycleScan (s : State) : ScanStep → State
  | .offEnd => s.raiseFault .unmatchedBracket
  | .found => (s.jumpPast s.scanJ).rephase
  | .more j d => s.scanOn j d

/-- Phase WAIT_OUT: the `.` commits when the sink takes the byte (R85, R100). -/
def cycleWaitOut (s : State) : Host.Outcome State Fault Refusal :=
  if s.now.outReady then commit (exec .out s) else .next s

/-- Phase WAIT_IN: the `,` commits when the channel answers (R85, R101). -/
def cycleWaitIn (s : State) : Host.Outcome State Fault Refusal :=
  if s.answer.isSome then commit (exec .inp s) else .next s

/-- One cycle in a phase that samples `abort`: the abort check comes first, and commits nothing (R86). -/
def cycleRun (s : State) (k : Host.Outcome State Fault Refusal) : Host.Outcome State Fault Refusal :=
  if s.now.abort then .next (s.haltRun .aborted) else k

/-- One cycle, `rst` apart (R85). -/
def cyclePhase (s : State) : Host.Outcome State Fault Refusal :=
  match s.phase with
  | .halt => .next (cycleHalt s)
  | .clear => cycleClear s
  | .fetch => cycleRun s (.next (cycleFetch s))
  | .exec => cycleRun s (cycleExec s)
  | .scanF => cycleRun s (.next (cycleScan s (scanFwdStep s s.scanJ s.depth)))
  | .scanB => cycleRun s (.next (cycleScan s (scanBwdStep s s.scanJ s.depth)))
  | .waitOut => cycleRun s (cycleWaitOut s)
  | .waitIn => cycleRun s (cycleWaitIn s)

/-- One clock cycle: `rst` has priority over every other input (R142). -/
def cycle (s : State) : Host.Outcome State Fault Refusal :=
  mapNext State.tickOver (if s.now.rst then .next s.resetBlock.forget else cyclePhase s)

/-- `n` cycles. -/
def cycles : Nat → State → Host.Outcome State Fault Refusal
  | 0, s => .next s
  | n + 1, s =>
    match cycle s with
    | .next t => cycles n t
    | .fault r => .fault r
    | .refused r => .refused r

end Sys2Proof.Machine
end

