-- ==== Sys2Proof/Machine/Ports.lean ====
section
/-!
DEFINITION. The output signals of the block (10_state.md §10) as functions of the state; `status` is in Flags.lean.
-/
namespace Sys2Proof.Machine

/-- `pc_out`: `PC` when no run is in progress; a free value during a run (R42). -/
def State.pcOut (s : State) : BitVec Config.pcWidth :=
  if s.state = .running then Config.pcOutRunning s.tick else BitVec.ofNat _ s.pc

/-- `dp_out`: `DP` when no run is in progress; a free value during a run (R42). -/
def State.dpOut (s : State) : TapeIndex := if s.state = .running then Config.dpOutRunning s.tick else s.dp

/-- `tape_rdata` for the address on `tape_raddr`: the cell when no run is in progress, 0 at an address of `L` or above
(R54); a free value during a run (R54), and between a reset and the next start (R30). -/
def State.tapeRdata (s : State) : Byte :=
  if s.state = .running then Config.tapeRdataRunning s.tick
  else if Config.tapeLen ≤ s.now.tapeRaddr.toNat then 0
  else
    match s.tapeUnknown with
    | none => s.cell s.now.tapeRaddr.toNat
    | some k => Config.tapeAfterReset k s.now.tapeRaddr.toNat

/-- `out_valid`: in phase WAIT_OUT, in a cycle with `abort = 0` (R100) and `rst = 0` (R142). -/
def State.outValid (s : State) : Bool := decide (s.phase = .waitOut) && !s.now.abort && !s.now.rst

/-- `out_data`: the current cell while `out_valid = 1` (R100); the spec gives it no value in another cycle. -/
def State.outData (s : State) : Byte := if s.outValid then s.current else Config.outDataIdle s.tick

/-- `in_req`: in phase WAIT_IN, in a cycle with `abort = 0` (R101) and `rst = 0` (R142). -/
def State.inReq (s : State) : Bool := decide (s.phase = .waitIn) && !s.now.abort && !s.now.rst

end Sys2Proof.Machine
end

