-- ==== Sys2Proof/Safety.lean ====
section
/-!
DEFINITION. The terms claims are stated in: the invariants of the two machines, the launch premise, what a run leaves to be
observed, and what an instruction never touches.
-/
namespace Sys2Proof.Machine

/-- The two stores are in canonical form and inside their address spaces, and `DP`, `PLEN` and `PC` are in range
(R23, R26, R28, R43). -/
structure StoresOk (s : State) : Prop where
  tapeWf : Memory.wf (some Config.blankCell) s.tape
  tapeIn : ∀ c ∈ s.tape, c.1 < Config.tapeLen
  progWf : Memory.wf none s.prog
  progIn : ∀ c ∈ s.prog, c.1 < Config.progMax
  dpIn : s.dp.toNat < Config.tapeLen
  plenIn : s.plen ≤ Config.progMax
  pcIn : s.pc ≤ Config.progMax

/-- Each register the model holds as a number holds one that its bits hold: `PC`, `PLEN` and `DEPTH` have `PC_W` bits (R15),
`SCAN_J` has `PC_W + 1` and a sign (R39, R109). -/
structure WidthsOk (s : State) : Prop where
  pc : s.pc < 2 ^ Config.pcWidth
  plen : s.plen < 2 ^ Config.pcWidth
  depth : s.depth < 2 ^ Config.pcWidth
  scanJLow : -(2 ^ Config.pcWidth : Int) ≤ s.scanJ
  scanJHigh : s.scanJ < (2 ^ Config.pcWidth : Int)

/-- The invariant of the instruction-level machine at every boundary: the stores, the registers' widths (R15,
R109), `PC ≤ PLEN` in a run (R24), the phase of a boundary (R85), and a tape that is unspecified exactly before the first start after a reset (R30). -/
structure Inv (s : State) : Prop where
  stores : StoresOk s
  widths : WidthsOk s
  pcLe : s.state = .running → s.pc ≤ s.plen
  phaseEq : s.phase = boundaryPhase s.state
  known : s.tapeUnknown = none ↔ s.state ≠ .idle

/-- The invariant of the cycle-level machine: the stores, the registers' widths in every phase (R15,
R109), and what holds of `PC`, `IR` and the matcher's registers in each phase (R85, R108, R109). -/
structure CycleInv (s : State) : Prop where
  stores : StoresOk s
  widths : WidthsOk s
  halted : s.phase = .halt ↔ s.state ≠ .running
  clearing : s.phase = .clear → s.clrA.toNat < Config.tapeLen
  fetching : s.phase = .fetch → s.pc ≤ s.plen
  inside : s.phase ∈ [Phase.exec, .scanF, .scanB, .waitOut, .waitIn] → s.pc < s.plen ∧ s.ir = s.progByte s.pc
  scanningF : s.phase = .scanF → 1 ≤ s.depth ∧ (s.depth : Int) + s.pc ≤ s.scanJ ∧ s.scanJ ≤ s.plen
  scanningB : s.phase = .scanB → 1 ≤ s.depth ∧ (s.depth : Int) + s.scanJ ≤ s.pc ∧ -1 ≤ s.scanJ

/-- THE LAUNCH PREMISE of a claim about a run: every byte below `PLEN` has been written (R50, R147). -/
def LaunchReady (s : State) : Prop := ∀ i < s.plen, (s.prog.lookup i).isSome

/-- What the end of a run leaves to be observed (R152). -/
structure Observation where
  state : RunState
  exit : BitVec 1
  pc : Nat
  dp : TapeIndex
  cells : List Byte
  outBytes : List Byte
  inAnswers : Nat
  deriving DecidableEq, Repr

/-- The observation of a run that has ended; none while there is no ended run (R152). -/
def State.observe (s : State) : Option Observation :=
  if s.state.terminal then
    some { state := s.state, exit := s.state.exitBit, pc := s.pc, dp := s.dp,
           cells := (List.range Config.tapeLen).map s.cell, outBytes := s.outBytes, inAnswers := s.inAnswers }
  else none

/-- `t` has the same program, the same host and the same boundary data as `s`: all an instruction never writes
(R20, R63). -/
structure SameFixed (s t : State) : Prop where
  prog : t.prog = s.prog
  plen : t.plen = s.plen
  ir : t.ir = s.ir
  clrA : t.clrA = s.clrA
  tapeUnknown : t.tapeUnknown = s.tapeUnknown
  script : t.script = s.script
  tick : t.tick = s.tick

/-- `t` has the architectural state and the channel record of `s`: `TAPE`, `DP`, `PC`, `PROG`, `PLEN`, `STATE`
(R20, R87). -/
structure SameArch (s t : State) : Prop where
  tape : t.tape = s.tape
  dp : t.dp = s.dp
  pc : t.pc = s.pc
  prog : t.prog = s.prog
  plen : t.plen = s.plen
  state : t.state = s.state
  outBytes : t.outBytes = s.outBytes
  inAnswers : t.inAnswers = s.inAnswers

/-- How many bytes equal to `b` stand at the `n` program addresses from `i` on (R113). -/
def countBytes (s : State) (b : Byte) : Nat → Nat → Nat
  | _, 0 => 0
  | i, n + 1 => (if s.progByte i = b then 1 else 0) + countBytes s b (i + 1) n

/-- The `]` at `m` balances a `[` at `p`: between them stand as many `[` as `]`, and no prefix holds more `]` than `[`
(R113). -/
structure FwdMatch (s : State) (p m : Nat) : Prop where
  after : p < m
  inside : m < s.plen
  closes : s.progByte m = closeByte
  balanced : countBytes s openByte (p + 1) (m - p - 1) = countBytes s closeByte (p + 1) (m - p - 1)
  prefixes : ∀ n ≤ m - p - 1, countBytes s closeByte (p + 1) n ≤ countBytes s openByte (p + 1) n

/-- The `[` at `m` balances a `]` at `p`: between them stand as many `[` as `]`, and no suffix holds more `[` than `]`
(R113, read from the right). -/
structure BwdMatch (s : State) (p m : Nat) : Prop where
  before : m < p
  opens : s.progByte m = openByte
  balanced : countBytes s closeByte (m + 1) (p - m - 1) = countBytes s openByte (m + 1) (p - m - 1)
  suffixes : ∀ n ≤ p - m - 1, countBytes s openByte (p - n) n ≤ countBytes s closeByte (p - n) n

/-- One instruction executed `k` times in a row, each time at the boundary the time before left (R95). -/
def execTimes (i : Instr) : Nat → State → Host.Outcome State Fault Refusal
  | 0, s => .next s
  | k + 1, s =>
    match exec i s with
    | .next t => execTimes i k t
    | .fault r => .fault r
    | .refused r => .refused r

end Sys2Proof.Machine
end

