-- ==== Sys2Proof/Certificates/Slice0/Obligations.lean ====
section
/-!
DEFINITION. The statements for the provers: the spec's numbered rules as propositions about the model. `exec i s` starts at
the boundary before instruction `i`, with `PC = p`, and ends at the boundary after it. A record update `{ s with … }` as the
next state says the result and the whole frame at once: every field not named is unchanged.
-/

open Sys2Proof Sys2Proof.Machine

/-! ### Encoding -/

/-- R67: the eight opcode bytes, written bit by bit, decode to their instructions, and no other byte is an opcode. The
byte values are the glyphs' ASCII codes, which R67 marks as general knowledge (assumption 4). -/
def Obligations.OpcodeBytesDecode : Prop :=
  decode [0b00111110] = .ok (.dpInc, []) ∧ decode [0b00111100] = .ok (.dpDec, []) ∧
  decode [0b00101011] = .ok (.cInc, []) ∧ decode [0b00101101] = .ok (.cDec, []) ∧
  decode [0b00101110] = .ok (.out, []) ∧ decode [0b00101100] = .ok (.inp, []) ∧
  decode [0b01011011] = .ok (.jz, []) ∧ decode [0b01011101] = .ok (.jnz, []) ∧
  ∀ b : Byte, decodeByte b ≠ .nop b → b ∈ [0x3E, 0x3C, 0x2B, 0x2D, 0x2E, 0x2C, 0x5B, (0x5D : Byte)]

/-- R68: exactly the bytes in six ranges decode to NOP, and they are 248. R68 is derived from R67's byte values
(assumption 4). -/
def Obligations.NopBytesDecode : Prop :=
  (∀ b : Byte, decodeByte b = .nop b ↔
    b ≤ 0x2A ∨ (0x2F ≤ b ∧ b ≤ 0x3B) ∨ b = 0x3D ∨ (0x3F ≤ b ∧ b ≤ 0x5A) ∨ b = 0x5C ∨ 0x5E ≤ b) ∧
  (List.range 256).countP (fun n => decodeByte (BitVec.ofNat 8 n) = .nop (BitVec.ofNat 8 n)) = 248

/-- R70 and R65: every byte, whatever follows it, decodes to one well-formed instruction of exactly that byte. -/
def Obligations.EveryByteDecodes : Prop :=
  ∀ (b : Byte) (rest : List Byte), ∃ i : Instr,
    decode (b :: rest) = .ok (i, rest) ∧ i.wellFormed = true ∧ encode i = [b]

/-- Decoding what the encoder gives for a well-formed instruction gives that instruction back. -/
def Obligations.DecodeOfEncode : Prop :=
  ∀ (i : Instr) (rest : List Byte), i.wellFormed = true → decode (encode i ++ rest) = .ok (i, rest)

/-- A step of a run, with the reset and the abort step out of the way and `PC` before the end, is `exec` of the
instruction the byte at `PC` decodes to, on the state whose `IR` holds that byte, with the boundary's own changes
after it. What a boundary is, and that the transient registers hold any value after it, is the model's (assumptions 1
and 8). -/
def Obligations.StepRunsDecoded : Prop :=
  ∀ (s : State) (i : Instr),
    s.state = .running → s.now.rst = false → s.abortTaken = false → s.pc < s.plen →
    i.wellFormed = true → decode [s.progByte s.pc] = .ok (i, []) →
    step s = mapNext State.boundary (exec i s.latchIr)

/-! ### The data pointer -/

/-- R89: `>` moves `DP` one up below the last cell, and raises `OutOfBounds` with `DP` unwritten at the last cell. -/
def Obligations.DpIncMovesUp : Prop :=
  ∀ s : State,
    (s.dp.toNat + 1 < Config.tapeLen →
      ∃ d : TapeIndex, d.toNat = s.dp.toNat + 1 ∧ exec .dpInc s = .next { s with dp := d, pc := s.pc + 1 }) ∧
    (Config.tapeLen ≤ s.dp.toNat + 1 →
      exec .dpInc s = .next { s with pc := s.pc + 1, state := .faultOob, phase := .halt })

/-- R90: `<` moves `DP` one down above cell 0, and raises `OutOfBounds` with `DP` unwritten at cell 0. -/
def Obligations.DpDecMovesDown : Prop :=
  ∀ s : State,
    (0 < s.dp.toNat →
      ∃ d : TapeIndex, d.toNat + 1 = s.dp.toNat ∧ exec .dpDec s = .next { s with dp := d, pc := s.pc + 1 }) ∧
    (s.dp.toNat = 0 →
      exec .dpDec s = .next { s with pc := s.pc + 1, state := .faultOob, phase := .halt })

/-- R92: `>` then `<` leaves `DP` as it was for `DP ≤ L - 2`, and the `>` faults at `L - 1`; `<` then `>` leaves it as
it was for `DP ≥ 1`, and the `<` faults at 0. The spec marks R92 as derived from R89 and R90. -/
def Obligations.PointerMovesAreInverse : Prop :=
  ∀ s : State,
    (s.dp.toNat + 1 < Config.tapeLen →
      ∃ t u : State, exec .dpInc s = .next t ∧ exec .dpDec t = .next u ∧ u = { s with pc := s.pc + 2 }) ∧
    (s.dp.toNat + 1 = Config.tapeLen → ∃ t : State, exec .dpInc s = .next t ∧ t.state = .faultOob ∧ t.dp = s.dp) ∧
    (1 ≤ s.dp.toNat → s.dp.toNat < Config.tapeLen →
      ∃ t u : State, exec .dpDec s = .next t ∧ exec .dpInc t = .next u ∧ u = { s with pc := s.pc + 2 }) ∧
    (s.dp.toNat = 0 → ∃ t : State, exec .dpDec s = .next t ∧ t.state = .faultOob ∧ t.dp = s.dp)

/-- R91 and the instructions' part of R22: no instruction but `>` and `<` changes `DP`, and they change it by exactly one,
without wrapping. -/
def Obligations.PointerNeverWraps : Prop :=
  ∀ (i : Instr) (s t : State), exec i s = .next t →
    t.dp = s.dp ∨ (i = .dpInc ∧ t.dp.toNat = s.dp.toNat + 1) ∨ (i = .dpDec ∧ t.dp.toNat + 1 = s.dp.toNat)

/-! ### Cell arithmetic -/

/-- R93: `+` adds one to the current cell modulo 256 and changes nothing else but `PC`. -/
def Obligations.CellIncrement : Prop :=
  ∀ s : State, s.dp.toNat < Config.tapeLen → ∃ t : State, exec .cInc s = .next t ∧
    (t.cell s.dp.toNat).toNat = ((s.cell s.dp.toNat).toNat + 1) % 256 ∧
    (∀ a, a ≠ s.dp.toNat → t.cell a = s.cell a) ∧ t = { s with tape := t.tape, pc := s.pc + 1 }

/-- R94: `-` subtracts one from the current cell modulo 256 and changes nothing else but `PC`. -/
def Obligations.CellDecrement : Prop :=
  ∀ s : State, s.dp.toNat < Config.tapeLen → ∃ t : State, exec .cDec s = .next t ∧
    ((t.cell s.dp.toNat).toNat : Int) = ((s.cell s.dp.toNat).toNat - 1 : Int) % 256 ∧
    (∀ a, a ≠ s.dp.toNat → t.cell a = s.cell a) ∧ t = { s with tape := t.tape, pc := s.pc + 1 }

/-- R95: `k` consecutive `+` add `k mod 256` to the current cell, so 256 of them leave it unchanged; `+` then `-`, and
`-` then `+`, leave every cell unchanged. The spec marks R95's laws as derived from R93 and R94. -/
def Obligations.CellArithmeticIsModulo : Prop :=
  ∀ s : State, s.dp.toNat < Config.tapeLen →
    (∀ k : Nat, ∃ t : State, execTimes .cInc k s = .next t ∧
      (t.cell s.dp.toNat).toNat = ((s.cell s.dp.toNat).toNat + k) % 256 ∧
      (∀ a, a ≠ s.dp.toNat → t.cell a = s.cell a) ∧ t.dp = s.dp ∧ t.pc = s.pc + k) ∧
    (∃ t : State, execTimes .cInc 256 s = .next t ∧ ∀ a, t.cell a = s.cell a) ∧
    (∃ t u : State, exec .cInc s = .next t ∧ exec .cDec t = .next u ∧ ∀ a, u.cell a = s.cell a) ∧
    (∃ t u : State, exec .cDec s = .next t ∧ exec .cInc t = .next u ∧ ∀ a, u.cell a = s.cell a)

/-! ### Input and output -/

/-- R102 and R82: `.` hands the current cell's value to the output channel when the sink takes it, and until then the run stays
at the boundary before it. That a waiting `.` is executed and answers the same state is the model's choice (assumption 1). -/
def Obligations.OutSendsCurrentCell : Prop :=
  ∀ s : State, s.dp.toNat < Config.tapeLen →
    (s.now.outReady = true →
      exec .out s = .next { s with pc := s.pc + 1, outBytes := s.outBytes ++ [s.cell s.dp.toNat] }) ∧
    (s.now.outReady = false → exec .out s = .next s)

/-- R103 and R82: `,` writes the byte answered to the current cell, leaves the cell unchanged on end-of-input, and while there is
no answer the run stays at the boundary before it. That a waiting `,` is executed and answers the same state is the model's
choice (assumption 1). -/
def Obligations.InputWritesCurrentCell : Prop :=
  ∀ s : State, s.dp.toNat < Config.tapeLen →
    (∀ v : Byte, s.answer = some (.byte v) → ∃ t : State, exec .inp s = .next t ∧
      t.cell s.dp.toNat = v ∧ (∀ a, a ≠ s.dp.toNat → t.cell a = s.cell a) ∧
      t = { s with tape := t.tape, pc := s.pc + 1, inAnswers := s.inAnswers + 1 }) ∧
    (s.answer = some .eof → exec .inp s = .next { s with pc := s.pc + 1, inAnswers := s.inAnswers + 1 }) ∧
    (s.answer = none → exec .inp s = .next s)

/-- R104, one instruction of it: only `.` sends a byte, the current cell's, at the end of the sequence; only `,`
consumes an answer, one; and each of the two does so exactly when it completes. The record of the transfers is the
model's own (assumption 12); the spec marks R104 as derived. -/
def Obligations.ChannelTransfersInOrder : Prop :=
  ∀ (i : Instr) (s t : State), exec i s = .next t →
    (t.outBytes = if i = .out ∧ s.now.outReady = true then s.outBytes ++ [s.cell s.dp.toNat] else s.outBytes) ∧
    (t.inAnswers = if i = .inp ∧ s.answer ≠ none then s.inAnswers + 1 else s.inAnswers)

/-- R82 and R140: while the channel of the `.` or `,` at `PC` does not do its part, a step of the run without abort
changes no architectural state. That a waiting step is a step of its own is the model's choice (assumption 1). -/
def Obligations.WaitChangesNothing : Prop :=
  ∀ s : State, s.state = .running → s.now.rst = false → s.now.abort = false → s.dp.toNat < Config.tapeLen →
    s.pc < s.plen →
    ((s.progByte s.pc = 0x2E ∧ s.now.outReady = false) ∨ (s.progByte s.pc = 0x2C ∧ s.answer = none)) →
    ∃ t : State, step s = .next t ∧ SameArch s t

/-- R100: the output handshake of the cycle-level machine. -/
def Obligations.OutputHandshake : Prop :=
  ∀ s : State,
    (s.outValid = true → s.phase = .waitOut ∧ s.now.abort = false) ∧
    (s.phase = .waitOut → s.now.rst = false → s.now.abort = false → s.dp.toNat < Config.tapeLen →
      s.outValid = true ∧ s.outData = s.cell s.dp.toNat ∧
      (s.now.outReady = true → ∃ t : State, cycle s = .next t ∧ t.outBytes = s.outBytes ++ [s.outData] ∧
        t.pc = s.pc + 1 ∧ t.phase ≠ .waitOut) ∧
      (s.now.outReady = false → ∃ t : State, cycle s = .next t ∧ SameArch s t ∧ t.phase = .waitOut ∧
        (t.outValid = true → t.outData = s.outData)))

/-- R101: the input handshake of the cycle-level machine; `in_valid` goes before `in_eof`. -/
def Obligations.InputHandshake : Prop :=
  ∀ s : State,
    (s.inReq = true → s.phase = .waitIn ∧ s.now.abort = false) ∧
    (s.phase = .waitIn → s.now.rst = false → s.now.abort = false → s.dp.toNat < Config.tapeLen →
      s.inReq = true ∧
      (s.now.inValid = true → ∃ t : State, cycle s = .next t ∧ t.cell s.dp.toNat = s.now.inData ∧
        t.pc = s.pc + 1 ∧ t.inAnswers = s.inAnswers + 1 ∧ t.phase ≠ .waitIn) ∧
      (s.now.inValid = false → s.now.inEof = true → ∃ t : State, cycle s = .next t ∧ t.tape = s.tape ∧
        t.pc = s.pc + 1 ∧ t.inAnswers = s.inAnswers + 1 ∧ t.phase ≠ .waitIn) ∧
      (s.now.inValid = false → s.now.inEof = false → ∃ t : State, cycle s = .next t ∧ SameArch s t ∧
        t.phase = .waitIn))

/-! ### Jumps -/

/-- R110: `[` falls through on a non-zero cell; on a zero cell it jumps past the `]` that balances it, and raises
`UnmatchedBracket` when there is none. -/
def Obligations.ForwardJump : Prop :=
  ∀ s : State, s.dp.toNat < Config.tapeLen →
    (s.cell s.dp.toNat ≠ 0 → exec .jz s = .next { s with pc := s.pc + 1 }) ∧
    (s.cell s.dp.toNat = 0 → ∀ m : Nat, FwdMatch s s.pc m →
      exec .jz s = .next { s with pc := m + 1, scanJ := m, depth := 0 }) ∧
    (s.cell s.dp.toNat = 0 → (∀ m : Nat, ¬ FwdMatch s s.pc m) → ∃ (j : Int) (d : Nat),
      exec .jz s =
        .next { s with pc := s.pc + 1, state := .faultUnmatched, phase := .halt, scanJ := j, depth := d })

/-- R111: `]` falls through on a zero cell; on a non-zero cell it jumps past the `[` that balances it, and raises
`UnmatchedBracket` when there is none. -/
def Obligations.BackwardJump : Prop :=
  ∀ s : State, s.dp.toNat < Config.tapeLen →
    (s.cell s.dp.toNat = 0 → exec .jnz s = .next { s with pc := s.pc + 1 }) ∧
    (s.cell s.dp.toNat ≠ 0 → ∀ m : Nat, BwdMatch s s.pc m →
      exec .jnz s = .next { s with pc := m + 1, scanJ := m, depth := 0 }) ∧
    (s.cell s.dp.toNat ≠ 0 → (∀ m : Nat, ¬ BwdMatch s s.pc m) → ∃ (j : Int) (d : Nat),
      exec .jnz s =
        .next { s with pc := s.pc + 1, state := .faultUnmatched, phase := .halt, scanJ := j, depth := d })

/-- R113: a scan stops at `m` exactly when the bracket at `m` is the one that balances the starting bracket. The spec
marks R113 as derived from R105 and R106. -/
def Obligations.ScanFindsBalancingBracket : Prop :=
  ∀ (s : State) (p : Nat),
    (∀ m : Nat, scanFwd s p = .found m ↔ FwdMatch s p m) ∧
    (∀ m : Nat, scanBwd s p = .found m ↔ BwdMatch s p m) ∧
    (∀ j : Int, scanFwd s p = .found j ∨ scanBwd s p = .found j → 0 ≤ j)

/-- R108 and R109: in a scan `DEPTH` is at least 1 and at most `PLEN` before each byte is examined, and `SCAN_J` stays in
`p+1..PLEN` forward and in `-1..p-1` backward; each pass of the loop keeps this, and a scan that fails ends with it, at `PLEN`
and at -1. The spec marks both rules as derived from R105 and R106. -/
def Obligations.ScanRegistersStayInRange : Prop :=
  ∀ (s : State) (p : Nat), p < s.plen →
    (∀ (j j' : Int) (d d' : Nat), (p : Int) + 1 ≤ j → j ≤ s.plen → 1 ≤ d → (d : Int) + p ≤ j →
      d ≤ s.plen ∧ (scanFwdStep s j d = .more j' d' →
        (p : Int) + 1 ≤ j' ∧ j' ≤ s.plen ∧ 1 ≤ d' ∧ (d' : Int) + p ≤ j' ∧ d' ≤ s.plen)) ∧
    (∀ (j j' : Int) (d d' : Nat), -1 ≤ j → j ≤ (p : Int) - 1 → 1 ≤ d → (d : Int) + j ≤ p →
      d ≤ s.plen ∧ (scanBwdStep s j d = .more j' d' →
        -1 ≤ j' ∧ j' ≤ (p : Int) - 1 ∧ 1 ≤ d' ∧ (d' : Int) + j' ≤ p ∧ d' ≤ s.plen)) ∧
    (∀ (j : Int) (d : Nat), scanFwd s p = .offEnd j d → j = s.plen ∧ 1 ≤ d ∧ d ≤ s.plen) ∧
    (∀ (j : Int) (d : Nat), scanBwd s p = .offEnd j d → j = -1 ∧ 1 ≤ d ∧ d ≤ s.plen)

/-- R114: matching is symmetric. The spec marks R114 as derived from R113. -/
def Obligations.MatchingIsSymmetric : Prop :=
  ∀ (s : State) (p m : Nat),
    (s.progByte p = openByte → scanFwd s p = .found m → scanBwd s m = .found p) ∧
    (s.progByte m = closeByte → m < s.plen → scanBwd s m = .found p → scanFwd s p = .found m)

/-- R115: a matched loop at `p..m` is a while loop: the `[` enters it on a non-zero cell and skips it on a zero one, and the
`]` repeats it on a non-zero cell and leaves it on a zero one. The spec marks R115 as derived from R110, R111 and R114. -/
def Obligations.MatchedLoopIsWhile : Prop :=
  ∀ (s : State) (p m : Nat), s.dp.toNat < Config.tapeLen → s.progByte p = openByte → FwdMatch s p m →
    (s.pc = p → ∃ t : State, exec .jz s = .next t ∧
      t.pc = (if s.cell s.dp.toNat = 0 then m + 1 else p + 1) ∧ t.state = s.state ∧ t.tape = s.tape ∧ t.dp = s.dp) ∧
    (s.pc = m → ∃ t : State, exec .jnz s = .next t ∧
      t.pc = (if s.cell s.dp.toNat = 0 then m + 1 else p + 1) ∧ t.state = s.state ∧ t.tape = s.tape ∧ t.dp = s.dp)

/-- R112 and R119 for `UnmatchedBracket`: an instruction of a run ends it in FAULT_UNMATCHED exactly when it is a
taken jump whose bracket has no partner. The spec marks R112 as derived from R110 and R111. -/
def Obligations.UnmatchedOnlyWhenTaken : Prop :=
  ∀ (i : Instr) (s t : State), s.state = .running → exec i s = .next t →
    (t.state = .faultUnmatched ↔
      (i = .jz ∧ s.cell s.dp.toNat = 0 ∧ ∀ m, ¬ FwdMatch s s.pc m) ∨
      (i = .jnz ∧ s.cell s.dp.toNat ≠ 0 ∧ ∀ m, ¬ BwdMatch s s.pc m))

/-- R26: inside a program, every value an instruction writes to `PC` is in `1..PLEN`; it stays only where the
instruction waits on its channel. The spec marks R26's range as derived; the wait is assumption 1's. -/
def Obligations.PcStaysInProgram : Prop :=
  ∀ (i : Instr) (s t : State), s.pc < s.plen → exec i s = .next t →
    (1 ≤ t.pc ∧ t.pc ≤ s.plen) ∨
    (t = s ∧ ((i = .out ∧ s.now.outReady = false) ∨ (i = .inp ∧ s.answer = none)))

/-- R81: every instruction that is no jump, and does not wait, leaves `PC = p + 1`. The spec marks R81 as derived; the
wait is assumption 1's. -/
def Obligations.PcAdvancesByOne : Prop :=
  ∀ (i : Instr) (s t : State), exec i s = .next t → i ≠ .jz → i ≠ .jnz →
    t.pc = s.pc + 1 ∨ (t = s ∧ ((i = .out ∧ s.now.outReady = false) ∨ (i = .inp ∧ s.answer = none)))

/-! ### No-operation bytes -/

/-- R117 and R118: every NOP byte only advances `PC`. -/
def Obligations.NopOnlyAdvances : Prop :=
  ∀ (b : Byte) (s : State), exec (.nop b) s = .next { s with pc := s.pc + 1 }

/-! ### Frames over all instructions -/

/-- R29, R44 and R47: an instruction writes no cell but the current one, and only `+`, `-` and `,` write the tape. -/
def Obligations.OnlyCurrentCellWritten : Prop :=
  ∀ (i : Instr) (s t : State), exec i s = .next t →
    (∀ a, a ≠ s.dp.toNat → t.cell a = s.cell a) ∧
    (i ≠ .cInc → i ≠ .cDec → i ≠ .inp → t.tape = s.tape)

/-- R63 and R20: no instruction writes the program store, the program length or anything of the host's, and only the jumps
write the matcher's registers. -/
def Obligations.ProgramNeverWritten : Prop :=
  ∀ (i : Instr) (s t : State), exec i s = .next t →
    SameFixed s t ∧ (i ≠ .jz → i ≠ .jnz → t.scanJ = s.scanJ ∧ t.depth = s.depth)

/-! ### Faults -/

/-- R124: what a fault leaves. -/
def Obligations.FaultEntry : Prop :=
  ∀ (i : Instr) (s t : State), s.state = .running → exec i s = .next t → t.state ≠ .running →
    (t.state = .faultOob ∨ t.state = .faultUnmatched) ∧ t.phase = .halt ∧ t.pc = s.pc + 1 ∧ t.dp = s.dp ∧
    t.tape = s.tape ∧ t.outBytes = s.outBytes ∧ t.inAnswers = s.inAnswers

/-- R119 for `OutOfBounds`, and R132: an instruction of a run ends it in FAULT_OOB exactly when it is a `>` at the last cell or
beyond, or a `<` at cell 0. -/
def Obligations.OutOfBoundsCauses : Prop :=
  ∀ (i : Instr) (s t : State), s.state = .running → exec i s = .next t →
    (t.state = .faultOob ↔
      (i = .dpInc ∧ Config.tapeLen ≤ s.dp.toNat + 1) ∨ (i = .dpDec ∧ s.dp.toNat = 0))

/-! ### Run control -/

/-- R142: what `rst` sets, at the instruction level and in the cycle-level machine, whatever the block was doing. -/
def Obligations.ResetSetsState : Prop :=
  ∀ s : State, s.now.rst = true →
    s.outValid = false ∧ s.inReq = false ∧
    ∀ f : State → Host.Outcome State Fault Refusal, f = step ∨ f = cycle →
      ∃ t : State, f s = .next t ∧ t.state = .idle ∧ t.phase = .halt ∧ t.pc = 0 ∧ t.dp = 0 ∧ t.plen = 0 ∧
        t.prog = s.prog ∧ t.tape = s.tape ∧ t.status = 0 ∧ t.outValid = false ∧ t.inReq = false

/-- R142, read at the state the model starts from. A program byte never written is a free value (assumption 5). -/
def Obligations.ResetStateValues : Prop :=
  State.reset.state = .idle ∧ State.reset.phase = .halt ∧ State.reset.pc = 0 ∧ State.reset.dp = 0 ∧
  State.reset.plen = 0 ∧ State.reset.status = 0 ∧ ∀ i, State.reset.progByte i = Config.unwrittenProg i

/-- R145 and R74: `start` outside a run begins one from a zero tape with both cursors at 0, the program unchanged; `start`
during a run is ignored. -/
def Obligations.StartBeginsRun : Prop :=
  (∀ s : State, s.now.rst = false → s.now.start = true → s.state ≠ .running →
    ∃ t : State, step s = .next t ∧ t.state = .running ∧ (∀ a, t.cell a = 0) ∧ t.dp = 0 ∧ t.pc = 0 ∧
      t.prog = s.prog ∧ t.plen = s.plen) ∧
  (∀ (s : State) (h : HostInput) (rest : List HostInput), s.state = .running → h.rst = false →
    step (s.withScript ({ h with start := true } :: rest)) =
      step (s.withScript ({ h with start := false } :: rest)))

/-- R146: the first instruction of a run is `PROG[0]`, at cell 0; an empty program ends as DONE at the run's first step. The
spec marks R146 as derived from R145 and R77. -/
def Obligations.RunEntersAtZero : Prop :=
  ∀ s t : State, s.state ≠ .running → s.now.rst = false → s.now.start = true → step s = .next t →
    t.now.rst = false → t.now.abort = false →
    (0 < s.plen → step t = mapNext State.boundary (exec (decodeByte (s.progByte 0)) t.latchIr) ∧ t.dp = 0) ∧
    (s.plen = 0 → ∃ u : State, step t = .next u ∧ u.state = .done ∧ u.pc = 0 ∧ u.dp = 0 ∧ ∀ a, u.cell a = 0)

/-- R49: the load port writes outside a run, and never during a run or in the cycle in which `start` is taken. -/
def Obligations.LoadPortWrites : Prop :=
  ∀ s : State, s.now.rst = false →
    (s.state ≠ .running → s.now.start = false → ∃ t : State, step s = .next t ∧
      t.plen = (if s.now.plenWe = true ∧ s.now.plenWdata ≤ Config.progMax then s.now.plenWdata else s.plen) ∧
      (∀ i, t.progByte i =
        if s.now.progWe = true ∧ s.now.progWaddr < Config.progMax ∧ i = s.now.progWaddr then s.now.progWdata
        else s.progByte i) ∧
      t.tape = s.tape ∧ t.dp = s.dp ∧ t.pc = s.pc ∧ t.state = s.state) ∧
    (s.state ≠ .running → s.now.start = true → ∃ t : State, step s = .next t ∧ t.prog = s.prog ∧ t.plen = s.plen) ∧
    (s.state = .running → ∀ t : State, step s = .next t → t.prog = s.prog ∧ t.plen = s.plen)

/-- R77: at the end of the program the run ends as DONE and nothing else changes. -/
def Obligations.DoneAtEndOfProgram : Prop :=
  ∀ s : State, s.state = .running → s.now.rst = false → s.now.abort = false → s.plen ≤ s.pc →
    ∃ t : State, step s = .next t ∧ SameArch { s with state := .done } t

/-- R128: the abort step, at every boundary of a run, ends it as ABORTED and changes nothing else. Which step goes
first at a boundary is the input `stepFirst`, the model's choice (assumption 11). -/
def Obligations.AbortStep : Prop :=
  ∀ s : State, s.state = .running → s.now.rst = false → s.now.abort = true →
    (s.now.stepFirst = false ∨ s.waits = true) →
    ∃ t : State, step s = .next t ∧ SameArch { s with state := .aborted } t

/-- R133: with `abort = 1` and an instruction or DONE step possible, both orders are admitted: one host takes the
abort step, and another the step that `abort = 0` gives. The order is the input `stepFirst`, the model's choice
(assumption 11). -/
def Obligations.AbortRaceAdmitsBothOrders : Prop :=
  ∀ (s : State) (h : HostInput) (rest : List HostInput),
    s.state = .running → s.script = h :: rest → h.rst = false → s.waits = false →
    (∃ t : State, step (s.withScript ({ h with abort := true, stepFirst := false } :: rest)) = .next t ∧
      SameArch { s with state := .aborted } t) ∧
    step (s.withScript ({ h with abort := true, stepFirst := true } :: rest)) =
      step (s.withScript ({ h with abort := false } :: rest))

/-- R130: outside a run `abort` has no effect; the clear does not sample it; and an abort held from before `start` is
taken at the first boundary, with both cursors and every cell at 0. The last clause takes the abort step first, by
`stepFirst` (assumption 11). -/
def Obligations.AbortIgnoredOutsideRun : Prop :=
  (∀ (s : State) (h : HostInput) (rest : List HostInput) (a f : Bool), s.state ≠ .running →
    step (s.withScript ({ h with abort := a, stepFirst := f } :: rest)) = step (s.withScript (h :: rest))) ∧
  (∀ (s : State) (h : HostInput) (rest : List HostInput) (a f : Bool), s.phase = .clear →
    cycle (s.withScript ({ h with abort := a, stepFirst := f } :: rest)) = cycle (s.withScript (h :: rest))) ∧
  (∀ s t : State, s.state ≠ .running → s.now.rst = false → s.now.start = true → step s = .next t →
    t.now.rst = false → t.now.abort = true → t.now.stepFirst = false →
    ∃ u : State, step t = .next u ∧ u.state = .aborted ∧ u.pc = 0 ∧ u.dp = 0 ∧ ∀ a, u.cell a = 0)

/-- R33 and R126: a terminal state stays, with all that the end of the run leaves to be observed, until `start` or `rst`. -/
def Obligations.TerminalStatePersists : Prop :=
  ∀ s : State, s.state.terminal = true → s.now.rst = false → s.now.start = false →
    ∃ t : State, step s = .next t ∧ t.state = s.state ∧ t.observe = s.observe

/-- R84: a step of a run that does not leave it RUNNING ends it as DONE at the end of the program, as ABORTED on `abort`, in one
of the two faults from the instructions that raise them, or is cut off by `rst`. -/
def Obligations.RunEndsFourWays : Prop :=
  ∀ s t : State, s.state = .running → step s = .next t → t.state ≠ .running →
    (t.state = .idle ∧ s.now.rst = true) ∨
    (s.now.rst = false ∧
      ((t.state = .done ∧ s.plen ≤ s.pc) ∨
       (t.state = .aborted ∧ s.now.abort = true) ∨
       (t.state = .faultOob ∧ s.pc < s.plen ∧ (s.fetched = .dpInc ∨ s.fetched = .dpDec)) ∨
       (t.state = .faultUnmatched ∧ s.pc < s.plen ∧ (s.fetched = .jz ∨ s.fetched = .jnz))))

/-- R148: during a run the block looks at no control or load input but `rst` and `abort`. `stepFirst` is the model's
own input (assumption 11). -/
def Obligations.RunIgnoresLoadAndStart : Prop :=
  ∀ (s : State) (h h' : HostInput) (rest : List HostInput), s.state = .running →
    h'.rst = h.rst → h'.abort = h.abort → h'.stepFirst = h.stepFirst → h'.outReady = h.outReady →
    h'.inValid = h.inValid → h'.inData = h.inData → h'.inEof = h.inEof →
    step (s.withScript (h' :: rest)) = step (s.withScript (h :: rest))

/-- R30: no run sees what the tape held before its start. How the model holds an unspecified tape is its own choice
(assumption 6). -/
def Obligations.StartHidesOldTape : Prop :=
  ∀ (s : State) (tape' : Memory) (u : Option Nat), s.state ≠ .running → s.now.rst = false → s.now.start = true →
    step { s with tape := tape', tapeUnknown := u } = step s

/-- R27 and R48: a step of a run reads no program byte at `PLEN` or above. A byte never written is a free value
(assumption 5). -/
def Obligations.BytesBeyondPlenUnread : Prop :=
  ∀ (s : State) (prog' : Memory), s.state = .running → s.now.rst = false →
    (∀ i, i < s.plen → (prog'.lookup i).getD (Config.unwrittenProg i) = s.progByte i) →
    step (s.withProg prog') = mapNext (fun t => t.withProg prog') (step s)

/-- R50: from the step that takes `start` to the end of the run, and after it until the host loads again, every byte below
`PLEN` stays written. -/
def Obligations.LaunchPremiseIsKept : Prop :=
  ∀ s t : State, LaunchReady s → (s.state ≠ .running → s.now.plenWe = true → s.now.start = true) →
    step s = .next t → LaunchReady t

/-! ### What the host reads -/

/-- R34, R32 and R36: the fields of the `STATUS` word. -/
def Obligations.StatusWordFields : Prop :=
  ∀ s : State,
    (s.status.extractLsb' 0 3).toNat =
      (match s.state with
        | .idle => 0 | .running => 1 | .done => 2 | .aborted => 3 | .faultOob => 4 | .faultUnmatched => 5) ∧
    (s.status.getLsbD 3 = true ↔ s.state = .faultOob ∨ s.state = .faultUnmatched) ∧
    s.status.extractLsb' 4 4 = 0

/-- R54 and R30: what the host's tape port shows outside a run. Where the spec gives the port no value it shows a free
value (assumptions 6 and 7). -/
def Obligations.TapeReadPort : Prop :=
  ∀ s : State, s.state ≠ .running →
    (Config.tapeLen ≤ s.now.tapeRaddr.toNat → s.tapeRdata = 0) ∧
    (s.now.tapeRaddr.toNat < Config.tapeLen → s.tapeUnknown = none → s.tapeRdata = s.cell s.now.tapeRaddr.toNat)

/-- R15, R26, R42 and R109: `PC_W` is the least width, and at least 1, that holds every number up to `PROG_MAX`; with the
stores and cursors in range, `PC` and `PLEN` fit in it, so that outside a run `pc_out` shows all of `PC`, and `dp_out` shows
`DP`; and no instruction of a program takes `PC`, `PLEN`, `DEPTH` or `SCAN_J` out of its width. The model holds these registers
as numbers (assumption 2). -/
def Obligations.RegistersFitTheirWidths : Prop :=
  (∀ n : Nat, n ≤ Config.progMax → n < 2 ^ Config.pcWidth) ∧
  (1 ≤ Config.pcWidth ∧ ∀ w : Nat, 1 ≤ w → Config.progMax < 2 ^ w → Config.pcWidth ≤ w) ∧
  (∀ s : State, StoresOk s →
    s.pc < 2 ^ Config.pcWidth ∧ s.plen < 2 ^ Config.pcWidth ∧
    (s.state ≠ .running → s.pcOut.toNat = s.pc ∧ s.dpOut = s.dp)) ∧
  (∀ (i : Instr) (s t : State), WidthsOk s → s.pc < s.plen → exec i s = .next t → WidthsOk t)

/-! ### Invariants of the instruction-level machine -/

/-- The state after reset meets the invariant. -/
def Obligations.ResetMeetsInvariant : Prop := Inv State.reset

/-- Every step keeps the invariant: canonical memories inside their address spaces, `PC`, `PLEN`, `DEPTH` and `SCAN_J` in their
widths (R15, R109), `DP < L` (R23), `PC ≤ PLEN` in a run (R24), `PC ≤ PROG_MAX` and `PLEN ≤ PROG_MAX` (R26, R28), the phase of a boundary (R85). -/
def Obligations.StepKeepsInvariant : Prop :=
  ∀ s t : State, Inv s → step s = .next t → Inv t

/-- From every state that meets the invariant, a step answers a next state: the model never stops. The one stop the
model has, a tape access at `L` or above (assumption 14), needs a state outside the invariant. -/
def Obligations.StepNeverStops : Prop :=
  ∀ s : State, Inv s → ∃ t : State, step s = .next t

/-! ### The cycle-level machine -/

/-- The state after reset meets the cycle-level invariant. -/
def Obligations.ResetMeetsCycleInvariant : Prop := CycleInv State.reset

/-- R108 and R109 with R85: every cycle answers a next state and keeps the cycle-level invariant, which bounds the
nesting counter and the matcher's index. The machine is the model's reading of R85 (assumption 13). -/
def Obligations.CycleKeepsInvariant : Prop :=
  ∀ s : State, CycleInv s → ∃ t : State, cycle s = .next t ∧ CycleInv t

/-- R86: in every phase that samples it, `abort` ends the run and commits nothing; CLEAR does not sample it. -/
def Obligations.CycleAbortComesFirst : Prop :=
  ∀ s : State, s.now.rst = false → s.now.abort = true →
    (s.phase ≠ .halt → s.phase ≠ .clear →
      ∃ t : State, cycle s = .next t ∧ t.phase = .halt ∧ SameArch { s with state := .aborted } t) ∧
    (s.phase = .clear → s.clrA.toNat < Config.tapeLen →
      ∃ t : State, cycle s = .next t ∧ t.state = s.state ∧ t.phase ≠ .halt)

/-- R87 for one instruction or the DONE step: under steady inputs with no reset and no abort, a sink that takes the
byte and a channel that answers, the cycle-level machine comes from FETCH to the next FETCH or HALT with exactly the
effect of one architectural step. The cycle-level machine is the model's reading of R85 (assumption 13). -/
def Obligations.CyclesRefineStep : Prop :=
  ∀ s : State, s.state = .running → s.phase = .fetch → s.pc ≤ s.plen → s.dp.toNat < Config.tapeLen →
    s.now.rst = false → s.now.abort = false → s.now.outReady = true → s.answer ≠ none →
    (∀ k, k ≤ s.plen + 3 → s.inputAt k = s.now) →
    ∃ (n : Nat) (t u : State), 1 ≤ n ∧ n ≤ s.plen + 3 ∧ cycles n s = .next t ∧ step s = .next u ∧
      SameArch u t ∧ t.phase = boundaryPhase t.state

/-- R87 and R88 for the start sequence: `start` and `L` cycles of CLEAR have exactly the effect of the step that takes
`start` (R145). The clear's first index is the model's reading of R85 (assumption 13). -/
def Obligations.ClearRefinesStart : Prop :=
  ∀ s : State, CycleInv s → s.state ≠ .running → s.now.start = true →
    (∀ k, k ≤ Config.tapeLen → (s.inputAt k).rst = false) →
    ∃ t u : State, cycles (Config.tapeLen + 1) s = .next t ∧ step s = .next u ∧ SameArch u t ∧ t.phase = .fetch

/-- R52 and R51, the grants and the writes. The tape belongs to the start clear in CLEAR, to the execute stage in the other
phases of a run, and to the host's read port outside a run; the program store to the fetch in FETCH, to the matcher in SCAN_F
and SCAN_B, to the load port outside a run. That the program store has no owner in CLEAR, EXEC, WAIT_OUT and WAIT_IN is the
model's own reading (assumption 13), since R52 names none there. A cycle changes the tape only as its owner does: outside a
run not at all, in CLEAR cell `CLR_A` alone, to 0, in the other phases of a run cell `DP` alone, in EXEC or WAIT_IN; and it
changes the program store only outside a run, by the load port's write at `prog_waddr`. The premise, HALT exactly outside a
run (R85), is a part of the cycle-level invariant. -/
def Obligations.ArbiterGrantsWrites : Prop :=
  ∀ s : State, (s.phase = .halt ↔ s.state ≠ .running) →
    (s.state = .running → s.phase = .clear → s.tapeOwner = .startClear) ∧
    (s.state = .running → s.phase ≠ .clear → s.tapeOwner = .execute) ∧
    (s.state ≠ .running → s.tapeOwner = .hostRead) ∧
    (s.phase = .fetch → s.progOwner = some .fetch) ∧
    (s.phase = .scanF ∨ s.phase = .scanB → s.progOwner = some .matcher) ∧
    (s.state ≠ .running → s.progOwner = some .loadPort) ∧
    (s.phase ∈ [Phase.clear, .exec, .waitOut, .waitIn] → s.progOwner = none) ∧
    ∀ t : State, cycle s = .next t →
      (s.tapeOwner = .hostRead → t.tape = s.tape) ∧
      (s.tapeOwner = .startClear → s.now.rst = false →
        t.cell s.clrA.toNat = 0 ∧ ∀ a, a ≠ s.clrA.toNat → t.cell a = s.cell a) ∧
      (s.tapeOwner = .execute → (∀ a, a ≠ s.dp.toNat → t.cell a = s.cell a) ∧
        (t.tape ≠ s.tape → s.phase = .exec ∨ s.phase = .waitIn)) ∧
      (s.now.rst = true → t.tape = s.tape) ∧
      (t.prog ≠ s.prog → s.progOwner = some .loadPort ∧ s.now.progWe = true ∧
        t.prog = s.prog.store none s.now.progWaddr s.now.progWdata)

/-- R52 and R51, the reads of the program store in a run: the fetch reads the byte at `PC` and no other, the matcher the byte
at its scan index and no other, and in a phase in which the arbiter grants the store to neither no byte is read. That it
grants the store to no one in the other phases of a run is the model's own reading of R52 (assumption 13). -/
def Obligations.ProgramReadsFollowArbiter : Prop :=
  ∀ (s : State) (prog' : Memory), s.state = .running →
    (s.progOwner = some .fetch → (s.withProg prog').progByte s.pc = s.progByte s.pc) →
    (s.progOwner = some .matcher → (s.withProg prog').progByte s.scanJ.toNat = s.progByte s.scanJ.toNat) →
    cycle (s.withProg prog') = mapNext (fun t => t.withProg prog') (cycle s)
end

