-- ==== Sys2Proof/Laws/Memory.lean ====
section
/-!
SUPPORT. The laws of memory lists: a read after a write to the same address gives the value written, a write leaves every
other address alone, and every operation keeps the canonical form.
-/
namespace Sys2Proof.Machine

/-! ### Reads -/

theorem Memory.lookup_insert (m : Memory) (a b : Nat) (v : Byte) :
    (m.insert a v).lookup b = if a = b then some v else m.lookup b := by
  induction m with
  | nil => rfl
  | cons c m ih =>
    obtain ⟨k, w⟩ := c
    simp only [Memory.insert]
    split
    · rfl
    · split
      · subst_vars; simp only [Memory.lookup]; split <;> rfl
      · simp only [Memory.lookup, ih]
        by_cases hk : k = b
        · rw [if_pos hk, if_neg (by omega), if_pos hk]
        · rw [if_neg hk, if_neg hk]

theorem Memory.lookup_erase (m : Memory) (a b : Nat) :
    (m.erase a).lookup b = if a = b then none else m.lookup b := by
  induction m with
  | nil => simp [Memory.erase, Memory.lookup]
  | cons c m ih =>
    obtain ⟨k, w⟩ := c
    have step : Memory.erase ((k, w) :: m) a = if k = a then Memory.erase m a else (k, w) :: Memory.erase m a := by
      by_cases hk : k = a <;> simp [Memory.erase, hk]
    rw [step]
    by_cases hk : k = a
    · rw [if_pos hk, ih]
      by_cases hb : a = b
      · rw [if_pos hb, if_pos hb]
      · rw [if_neg hb, if_neg hb, Memory.lookup, if_neg (by omega)]
    · rw [if_neg hk, Memory.lookup, ih, Memory.lookup]
      by_cases hb : k = b
      · rw [if_pos hb, if_neg (by omega), if_pos hb]
      · rw [if_neg hb, if_neg hb]

/-- What `b` reads as after a write at `a`, where unlisted addresses read as `d`. -/
theorem Memory.getD_store_some (m : Memory) (d v : Byte) (a b : Nat) :
    ((m.store (some d) a v).lookup b).getD d = if a = b then v else (m.lookup b).getD d := by
  unfold Memory.store
  by_cases hv : some v = some d
  · rw [if_pos hv, Memory.lookup_erase]
    by_cases hb : a = b
    · rw [if_pos hb, if_pos hb]; exact (Option.some.inj hv).symm
    · rw [if_neg hb, if_neg hb]
  · rw [if_neg hv, Memory.lookup_insert]
    split <;> rfl

theorem Memory.lookup_store_none (m : Memory) (a b : Nat) (v : Byte) :
    (m.store none a v).lookup b = if a = b then some v else m.lookup b := by
  rw [Memory.store, if_neg (by simp), Memory.lookup_insert]

/-- A tape cell after a tape write (R46). -/
theorem State.cell_setCell (s : State) (a b : Nat) (v : Byte) :
    (s.setCell a v).cell b = if a = b then v else s.cell b :=
  Memory.getD_store_some s.tape Config.blankCell v a b

/-- A tape cell after a write of the current cell (R46). -/
theorem State.cell_setCurrent (s : State) (b : Nat) (v : Byte) :
    (s.setCurrent v).cell b = if s.dp.toNat = b then v else s.cell b := s.cell_setCell _ _ _

/-- A program byte after a write of the program store (R49). -/
theorem State.progByte_setProg (s : State) (a b : Nat) (v : Byte) :
    (s.setProg a v).progByte b = if a = b then v else s.progByte b := by
  unfold State.progByte State.setProg
  rw [Memory.lookup_store_none]
  split <;> rfl

/-! ### The canonical form -/

theorem Memory.mem_insert {m : Memory} {a : Nat} {v : Byte} {c : Host.Cell} (h : c ∈ m.insert a v) :
    c = (a, v) ∨ c ∈ m := by
  induction m with
  | nil => simpa [Memory.insert] using h
  | cons d m ih =>
    obtain ⟨k, w⟩ := d
    simp only [Memory.insert] at h
    split at h
    · simpa using h
    · split at h
      · simp only [List.mem_cons] at h ⊢; tauto
      · simp only [List.mem_cons] at h ⊢
        rcases h with h | h
        · tauto
        · rcases ih h with h | h <;> tauto

theorem Memory.mem_store {bl : Option Byte} {m : Memory} {a : Nat} {v : Byte} {c : Host.Cell}
    (h : c ∈ m.store bl a v) : (c = (a, v) ∧ some v ≠ bl) ∨ c ∈ m := by
  unfold Memory.store at h
  split at h
  · exact .inr (List.mem_of_mem_filter h)
  · rcases Memory.mem_insert h with h | h <;> tauto

theorem Memory.rising_insert {m : Memory} (a : Nat) (v : Byte) (h : m.Pairwise (fun x y => x.1 < y.1)) :
    (m.insert a v).Pairwise (fun x y => x.1 < y.1) := by
  induction m with
  | nil => simp [Memory.insert]
  | cons d m ih =>
    obtain ⟨k, w⟩ := d
    rw [List.pairwise_cons] at h
    simp only [Memory.insert]
    split
    · rw [List.pairwise_cons]
      refine ⟨fun c hc => ?_, List.pairwise_cons.2 h⟩
      rcases List.mem_cons.1 hc with rfl | hc
      · assumption
      · exact Nat.lt_trans (by assumption) (h.1 c hc)
    · split
      · subst_vars; exact List.pairwise_cons.2 ⟨h.1, h.2⟩
      · rw [List.pairwise_cons]
        refine ⟨fun c hc => ?_, ih h.2⟩
        rcases Memory.mem_insert hc with rfl | hc
        · simp only; omega
        · exact h.1 c hc

/-- Every write keeps the canonical form. -/
theorem Memory.wf_store {bl : Option Byte} {m : Memory} (a : Nat) (v : Byte) (h : Memory.wf bl m) :
    Memory.wf bl (m.store bl a v) := by
  refine ⟨?_, fun c hc => ?_⟩
  · unfold Memory.store
    split
    · exact h.1.filter _
    · exact Memory.rising_insert a v h.1
  · rcases Memory.mem_store hc with ⟨rfl, hv⟩ | hc
    · exact hv
    · exact h.2 c hc

/-- The empty memory is in canonical form. -/
theorem Memory.wf_nil (bl : Option Byte) : Memory.wf bl [] := by simp [Memory.wf]

/-- Writing the value unlisted addresses read as, at every listed address in turn, is how the clear empties a list:
after a store of `bl`'s value at `a`, no entry stands at `a`. -/
theorem Memory.not_mem_store_blank {d : Byte} {m : Memory} {a : Nat} {c : Host.Cell}
    (h : c ∈ m.store (some d) a d) : c ∈ m ∧ c.1 ≠ a := by
  simp only [Memory.store, Memory.erase, if_true, List.mem_filter, decide_eq_true_eq] at h
  exact h

end Sys2Proof.Machine
end

