-- ==== Sys2Proof/Laws/State.lean ====
section
/-!
SUPPORT. What each update of the state does to each field, true by definition, so that no proof unfolds a record update;
and the reads (`now`, `answer`, `cell`, `progByte`, `current`) that an update leaves alone.
-/
namespace Sys2Proof.Machine

variable (s : State)

/-! ### `State.withScript` -/

@[simp] theorem State.withScript_tape (l : List HostInput) : (s.withScript l).tape = s.tape := rfl
@[simp] theorem State.withScript_dp (l : List HostInput) : (s.withScript l).dp = s.dp := rfl
@[simp] theorem State.withScript_pc (l : List HostInput) : (s.withScript l).pc = s.pc := rfl
@[simp] theorem State.withScript_prog (l : List HostInput) : (s.withScript l).prog = s.prog := rfl
@[simp] theorem State.withScript_plen (l : List HostInput) : (s.withScript l).plen = s.plen := rfl
@[simp] theorem State.withScript_state (l : List HostInput) : (s.withScript l).state = s.state := rfl
@[simp] theorem State.withScript_phase (l : List HostInput) : (s.withScript l).phase = s.phase := rfl
@[simp] theorem State.withScript_ir (l : List HostInput) : (s.withScript l).ir = s.ir := rfl
@[simp] theorem State.withScript_scanJ (l : List HostInput) : (s.withScript l).scanJ = s.scanJ := rfl
@[simp] theorem State.withScript_depth (l : List HostInput) : (s.withScript l).depth = s.depth := rfl
@[simp] theorem State.withScript_clrA (l : List HostInput) : (s.withScript l).clrA = s.clrA := rfl
@[simp] theorem State.withScript_tapeUnknown (l : List HostInput) : (s.withScript l).tapeUnknown = s.tapeUnknown := rfl
@[simp] theorem State.withScript_outBytes (l : List HostInput) : (s.withScript l).outBytes = s.outBytes := rfl
@[simp] theorem State.withScript_inAnswers (l : List HostInput) : (s.withScript l).inAnswers = s.inAnswers := rfl
@[simp] theorem State.withScript_script (l : List HostInput) : (s.withScript l).script = l := rfl
@[simp] theorem State.withScript_tick (l : List HostInput) : (s.withScript l).tick = s.tick := rfl
@[simp] theorem State.withScript_cell (l : List HostInput) (a : Nat) : (s.withScript l).cell a = s.cell a := rfl
@[simp] theorem State.withScript_current (l : List HostInput) : (s.withScript l).current = s.current := rfl
@[simp] theorem State.withScript_progByte (l : List HostInput) (k : Nat) : (s.withScript l).progByte k = s.progByte k := rfl

/-! ### `State.withProg` -/

@[simp] theorem State.withProg_tape (m : Memory) : (s.withProg m).tape = s.tape := rfl
@[simp] theorem State.withProg_dp (m : Memory) : (s.withProg m).dp = s.dp := rfl
@[simp] theorem State.withProg_pc (m : Memory) : (s.withProg m).pc = s.pc := rfl
@[simp] theorem State.withProg_prog (m : Memory) : (s.withProg m).prog = m := rfl
@[simp] theorem State.withProg_plen (m : Memory) : (s.withProg m).plen = s.plen := rfl
@[simp] theorem State.withProg_state (m : Memory) : (s.withProg m).state = s.state := rfl
@[simp] theorem State.withProg_phase (m : Memory) : (s.withProg m).phase = s.phase := rfl
@[simp] theorem State.withProg_ir (m : Memory) : (s.withProg m).ir = s.ir := rfl
@[simp] theorem State.withProg_scanJ (m : Memory) : (s.withProg m).scanJ = s.scanJ := rfl
@[simp] theorem State.withProg_depth (m : Memory) : (s.withProg m).depth = s.depth := rfl
@[simp] theorem State.withProg_clrA (m : Memory) : (s.withProg m).clrA = s.clrA := rfl
@[simp] theorem State.withProg_tapeUnknown (m : Memory) : (s.withProg m).tapeUnknown = s.tapeUnknown := rfl
@[simp] theorem State.withProg_outBytes (m : Memory) : (s.withProg m).outBytes = s.outBytes := rfl
@[simp] theorem State.withProg_inAnswers (m : Memory) : (s.withProg m).inAnswers = s.inAnswers := rfl
@[simp] theorem State.withProg_script (m : Memory) : (s.withProg m).script = s.script := rfl
@[simp] theorem State.withProg_tick (m : Memory) : (s.withProg m).tick = s.tick := rfl
@[simp] theorem State.withProg_inputAt (m : Memory) (k : Nat) : (s.withProg m).inputAt k = s.inputAt k := rfl
@[simp] theorem State.withProg_now (m : Memory) : (s.withProg m).now = s.now := rfl
@[simp] theorem State.withProg_answer (m : Memory) : (s.withProg m).answer = s.answer := rfl
@[simp] theorem State.withProg_cell (m : Memory) (a : Nat) : (s.withProg m).cell a = s.cell a := rfl
@[simp] theorem State.withProg_current (m : Memory) : (s.withProg m).current = s.current := rfl

/-! ### `State.retire` -/

@[simp] theorem State.retire_tape : s.retire.tape = s.tape := rfl
@[simp] theorem State.retire_dp : s.retire.dp = s.dp := rfl
@[simp] theorem State.retire_pc : s.retire.pc = s.pc + 1 := rfl
@[simp] theorem State.retire_prog : s.retire.prog = s.prog := rfl
@[simp] theorem State.retire_plen : s.retire.plen = s.plen := rfl
@[simp] theorem State.retire_state : s.retire.state = s.state := rfl
@[simp] theorem State.retire_phase : s.retire.phase = s.phase := rfl
@[simp] theorem State.retire_ir : s.retire.ir = s.ir := rfl
@[simp] theorem State.retire_scanJ : s.retire.scanJ = s.scanJ := rfl
@[simp] theorem State.retire_depth : s.retire.depth = s.depth := rfl
@[simp] theorem State.retire_clrA : s.retire.clrA = s.clrA := rfl
@[simp] theorem State.retire_tapeUnknown : s.retire.tapeUnknown = s.tapeUnknown := rfl
@[simp] theorem State.retire_outBytes : s.retire.outBytes = s.outBytes := rfl
@[simp] theorem State.retire_inAnswers : s.retire.inAnswers = s.inAnswers := rfl
@[simp] theorem State.retire_script : s.retire.script = s.script := rfl
@[simp] theorem State.retire_tick : s.retire.tick = s.tick := rfl
@[simp] theorem State.retire_inputAt (k : Nat) : s.retire.inputAt k = s.inputAt k := rfl
@[simp] theorem State.retire_now : s.retire.now = s.now := rfl
@[simp] theorem State.retire_answer : s.retire.answer = s.answer := rfl
@[simp] theorem State.retire_cell (a : Nat) : s.retire.cell a = s.cell a := rfl
@[simp] theorem State.retire_current : s.retire.current = s.current := rfl
@[simp] theorem State.retire_progByte (k : Nat) : s.retire.progByte k = s.progByte k := rfl

/-! ### `State.haltRun` -/

@[simp] theorem State.haltRun_tape (e : RunState) : (s.haltRun e).tape = s.tape := rfl
@[simp] theorem State.haltRun_dp (e : RunState) : (s.haltRun e).dp = s.dp := rfl
@[simp] theorem State.haltRun_pc (e : RunState) : (s.haltRun e).pc = s.pc := rfl
@[simp] theorem State.haltRun_prog (e : RunState) : (s.haltRun e).prog = s.prog := rfl
@[simp] theorem State.haltRun_plen (e : RunState) : (s.haltRun e).plen = s.plen := rfl
@[simp] theorem State.haltRun_state (e : RunState) : (s.haltRun e).state = e := rfl
@[simp] theorem State.haltRun_phase (e : RunState) : (s.haltRun e).phase = .halt := rfl
@[simp] theorem State.haltRun_ir (e : RunState) : (s.haltRun e).ir = s.ir := rfl
@[simp] theorem State.haltRun_scanJ (e : RunState) : (s.haltRun e).scanJ = s.scanJ := rfl
@[simp] theorem State.haltRun_depth (e : RunState) : (s.haltRun e).depth = s.depth := rfl
@[simp] theorem State.haltRun_clrA (e : RunState) : (s.haltRun e).clrA = s.clrA := rfl
@[simp] theorem State.haltRun_tapeUnknown (e : RunState) : (s.haltRun e).tapeUnknown = s.tapeUnknown := rfl
@[simp] theorem State.haltRun_outBytes (e : RunState) : (s.haltRun e).outBytes = s.outBytes := rfl
@[simp] theorem State.haltRun_inAnswers (e : RunState) : (s.haltRun e).inAnswers = s.inAnswers := rfl
@[simp] theorem State.haltRun_script (e : RunState) : (s.haltRun e).script = s.script := rfl
@[simp] theorem State.haltRun_tick (e : RunState) : (s.haltRun e).tick = s.tick := rfl
@[simp] theorem State.haltRun_inputAt (e : RunState) (k : Nat) : (s.haltRun e).inputAt k = s.inputAt k := rfl
@[simp] theorem State.haltRun_now (e : RunState) : (s.haltRun e).now = s.now := rfl
@[simp] theorem State.haltRun_answer (e : RunState) : (s.haltRun e).answer = s.answer := rfl
@[simp] theorem State.haltRun_cell (e : RunState) (a : Nat) : (s.haltRun e).cell a = s.cell a := rfl
@[simp] theorem State.haltRun_current (e : RunState) : (s.haltRun e).current = s.current := rfl
@[simp] theorem State.haltRun_progByte (e : RunState) (k : Nat) : (s.haltRun e).progByte k = s.progByte k := rfl

/-! ### `State.raiseFault`: the frame of taking an exception (R124) -/

@[simp] theorem State.raiseFault_tape (c : Cause) : (s.raiseFault c).tape = s.tape := rfl
@[simp] theorem State.raiseFault_dp (c : Cause) : (s.raiseFault c).dp = s.dp := rfl
@[simp] theorem State.raiseFault_pc (c : Cause) : (s.raiseFault c).pc = s.pc + 1 := rfl
@[simp] theorem State.raiseFault_prog (c : Cause) : (s.raiseFault c).prog = s.prog := rfl
@[simp] theorem State.raiseFault_plen (c : Cause) : (s.raiseFault c).plen = s.plen := rfl
@[simp] theorem State.raiseFault_state (c : Cause) : (s.raiseFault c).state = c.code := rfl
@[simp] theorem State.raiseFault_phase (c : Cause) : (s.raiseFault c).phase = .halt := rfl
@[simp] theorem State.raiseFault_ir (c : Cause) : (s.raiseFault c).ir = s.ir := rfl
@[simp] theorem State.raiseFault_scanJ (c : Cause) : (s.raiseFault c).scanJ = s.scanJ := rfl
@[simp] theorem State.raiseFault_depth (c : Cause) : (s.raiseFault c).depth = s.depth := rfl
@[simp] theorem State.raiseFault_clrA (c : Cause) : (s.raiseFault c).clrA = s.clrA := rfl
@[simp] theorem State.raiseFault_tapeUnknown (c : Cause) : (s.raiseFault c).tapeUnknown = s.tapeUnknown := rfl
@[simp] theorem State.raiseFault_outBytes (c : Cause) : (s.raiseFault c).outBytes = s.outBytes := rfl
@[simp] theorem State.raiseFault_inAnswers (c : Cause) : (s.raiseFault c).inAnswers = s.inAnswers := rfl
@[simp] theorem State.raiseFault_script (c : Cause) : (s.raiseFault c).script = s.script := rfl
@[simp] theorem State.raiseFault_tick (c : Cause) : (s.raiseFault c).tick = s.tick := rfl
@[simp] theorem State.raiseFault_inputAt (c : Cause) (k : Nat) : (s.raiseFault c).inputAt k = s.inputAt k := rfl
@[simp] theorem State.raiseFault_now (c : Cause) : (s.raiseFault c).now = s.now := rfl
@[simp] theorem State.raiseFault_answer (c : Cause) : (s.raiseFault c).answer = s.answer := rfl
@[simp] theorem State.raiseFault_cell (c : Cause) (a : Nat) : (s.raiseFault c).cell a = s.cell a := rfl
@[simp] theorem State.raiseFault_current (c : Cause) : (s.raiseFault c).current = s.current := rfl
@[simp] theorem State.raiseFault_progByte (c : Cause) (k : Nat) : (s.raiseFault c).progByte k = s.progByte k := rfl

/-! ### `State.setCell` -/

@[simp] theorem State.setCell_tape (a : Nat) (v : Byte) : (s.setCell a v).tape = s.tape.store (some Config.blankCell) a v := rfl
@[simp] theorem State.setCell_dp (a : Nat) (v : Byte) : (s.setCell a v).dp = s.dp := rfl
@[simp] theorem State.setCell_pc (a : Nat) (v : Byte) : (s.setCell a v).pc = s.pc := rfl
@[simp] theorem State.setCell_prog (a : Nat) (v : Byte) : (s.setCell a v).prog = s.prog := rfl
@[simp] theorem State.setCell_plen (a : Nat) (v : Byte) : (s.setCell a v).plen = s.plen := rfl
@[simp] theorem State.setCell_state (a : Nat) (v : Byte) : (s.setCell a v).state = s.state := rfl
@[simp] theorem State.setCell_phase (a : Nat) (v : Byte) : (s.setCell a v).phase = s.phase := rfl
@[simp] theorem State.setCell_ir (a : Nat) (v : Byte) : (s.setCell a v).ir = s.ir := rfl
@[simp] theorem State.setCell_scanJ (a : Nat) (v : Byte) : (s.setCell a v).scanJ = s.scanJ := rfl
@[simp] theorem State.setCell_depth (a : Nat) (v : Byte) : (s.setCell a v).depth = s.depth := rfl
@[simp] theorem State.setCell_clrA (a : Nat) (v : Byte) : (s.setCell a v).clrA = s.clrA := rfl
@[simp] theorem State.setCell_tapeUnknown (a : Nat) (v : Byte) : (s.setCell a v).tapeUnknown = s.tapeUnknown := rfl
@[simp] theorem State.setCell_outBytes (a : Nat) (v : Byte) : (s.setCell a v).outBytes = s.outBytes := rfl
@[simp] theorem State.setCell_inAnswers (a : Nat) (v : Byte) : (s.setCell a v).inAnswers = s.inAnswers := rfl
@[simp] theorem State.setCell_script (a : Nat) (v : Byte) : (s.setCell a v).script = s.script := rfl
@[simp] theorem State.setCell_tick (a : Nat) (v : Byte) : (s.setCell a v).tick = s.tick := rfl
@[simp] theorem State.setCell_inputAt (a : Nat) (v : Byte) (k : Nat) : (s.setCell a v).inputAt k = s.inputAt k := rfl
@[simp] theorem State.setCell_now (a : Nat) (v : Byte) : (s.setCell a v).now = s.now := rfl
@[simp] theorem State.setCell_answer (a : Nat) (v : Byte) : (s.setCell a v).answer = s.answer := rfl
@[simp] theorem State.setCell_progByte (a : Nat) (v : Byte) (k : Nat) : (s.setCell a v).progByte k = s.progByte k := rfl

/-! ### `State.setCurrent` -/

@[simp] theorem State.setCurrent_tape (v : Byte) : (s.setCurrent v).tape = s.tape.store (some Config.blankCell) s.dp.toNat v := rfl
@[simp] theorem State.setCurrent_dp (v : Byte) : (s.setCurrent v).dp = s.dp := rfl
@[simp] theorem State.setCurrent_pc (v : Byte) : (s.setCurrent v).pc = s.pc := rfl
@[simp] theorem State.setCurrent_prog (v : Byte) : (s.setCurrent v).prog = s.prog := rfl
@[simp] theorem State.setCurrent_plen (v : Byte) : (s.setCurrent v).plen = s.plen := rfl
@[simp] theorem State.setCurrent_state (v : Byte) : (s.setCurrent v).state = s.state := rfl
@[simp] theorem State.setCurrent_phase (v : Byte) : (s.setCurrent v).phase = s.phase := rfl
@[simp] theorem State.setCurrent_ir (v : Byte) : (s.setCurrent v).ir = s.ir := rfl
@[simp] theorem State.setCurrent_scanJ (v : Byte) : (s.setCurrent v).scanJ = s.scanJ := rfl
@[simp] theorem State.setCurrent_depth (v : Byte) : (s.setCurrent v).depth = s.depth := rfl
@[simp] theorem State.setCurrent_clrA (v : Byte) : (s.setCurrent v).clrA = s.clrA := rfl
@[simp] theorem State.setCurrent_tapeUnknown (v : Byte) : (s.setCurrent v).tapeUnknown = s.tapeUnknown := rfl
@[simp] theorem State.setCurrent_outBytes (v : Byte) : (s.setCurrent v).outBytes = s.outBytes := rfl
@[simp] theorem State.setCurrent_inAnswers (v : Byte) : (s.setCurrent v).inAnswers = s.inAnswers := rfl
@[simp] theorem State.setCurrent_script (v : Byte) : (s.setCurrent v).script = s.script := rfl
@[simp] theorem State.setCurrent_tick (v : Byte) : (s.setCurrent v).tick = s.tick := rfl
@[simp] theorem State.setCurrent_inputAt (v : Byte) (k : Nat) : (s.setCurrent v).inputAt k = s.inputAt k := rfl
@[simp] theorem State.setCurrent_now (v : Byte) : (s.setCurrent v).now = s.now := rfl
@[simp] theorem State.setCurrent_answer (v : Byte) : (s.setCurrent v).answer = s.answer := rfl
@[simp] theorem State.setCurrent_progByte (v : Byte) (k : Nat) : (s.setCurrent v).progByte k = s.progByte k := rfl

/-! ### `State.setProg` -/

@[simp] theorem State.setProg_tape (i : Nat) (v : Byte) : (s.setProg i v).tape = s.tape := rfl
@[simp] theorem State.setProg_dp (i : Nat) (v : Byte) : (s.setProg i v).dp = s.dp := rfl
@[simp] theorem State.setProg_pc (i : Nat) (v : Byte) : (s.setProg i v).pc = s.pc := rfl
@[simp] theorem State.setProg_prog (i : Nat) (v : Byte) : (s.setProg i v).prog = s.prog.store none i v := rfl
@[simp] theorem State.setProg_plen (i : Nat) (v : Byte) : (s.setProg i v).plen = s.plen := rfl
@[simp] theorem State.setProg_state (i : Nat) (v : Byte) : (s.setProg i v).state = s.state := rfl
@[simp] theorem State.setProg_phase (i : Nat) (v : Byte) : (s.setProg i v).phase = s.phase := rfl
@[simp] theorem State.setProg_ir (i : Nat) (v : Byte) : (s.setProg i v).ir = s.ir := rfl
@[simp] theorem State.setProg_scanJ (i : Nat) (v : Byte) : (s.setProg i v).scanJ = s.scanJ := rfl
@[simp] theorem State.setProg_depth (i : Nat) (v : Byte) : (s.setProg i v).depth = s.depth := rfl
@[simp] theorem State.setProg_clrA (i : Nat) (v : Byte) : (s.setProg i v).clrA = s.clrA := rfl
@[simp] theorem State.setProg_tapeUnknown (i : Nat) (v : Byte) : (s.setProg i v).tapeUnknown = s.tapeUnknown := rfl
@[simp] theorem State.setProg_outBytes (i : Nat) (v : Byte) : (s.setProg i v).outBytes = s.outBytes := rfl
@[simp] theorem State.setProg_inAnswers (i : Nat) (v : Byte) : (s.setProg i v).inAnswers = s.inAnswers := rfl
@[simp] theorem State.setProg_script (i : Nat) (v : Byte) : (s.setProg i v).script = s.script := rfl
@[simp] theorem State.setProg_tick (i : Nat) (v : Byte) : (s.setProg i v).tick = s.tick := rfl
@[simp] theorem State.setProg_inputAt (i : Nat) (v : Byte) (k : Nat) : (s.setProg i v).inputAt k = s.inputAt k := rfl
@[simp] theorem State.setProg_now (i : Nat) (v : Byte) : (s.setProg i v).now = s.now := rfl
@[simp] theorem State.setProg_answer (i : Nat) (v : Byte) : (s.setProg i v).answer = s.answer := rfl
@[simp] theorem State.setProg_cell (i : Nat) (v : Byte) (a : Nat) : (s.setProg i v).cell a = s.cell a := rfl
@[simp] theorem State.setProg_current (i : Nat) (v : Byte) : (s.setProg i v).current = s.current := rfl

/-! ### `State.jumpPast` -/

@[simp] theorem State.jumpPast_tape (j : Int) : (s.jumpPast j).tape = s.tape := rfl
@[simp] theorem State.jumpPast_dp (j : Int) : (s.jumpPast j).dp = s.dp := rfl
@[simp] theorem State.jumpPast_pc (j : Int) : (s.jumpPast j).pc = (j + 1).toNat := rfl
@[simp] theorem State.jumpPast_prog (j : Int) : (s.jumpPast j).prog = s.prog := rfl
@[simp] theorem State.jumpPast_plen (j : Int) : (s.jumpPast j).plen = s.plen := rfl
@[simp] theorem State.jumpPast_state (j : Int) : (s.jumpPast j).state = s.state := rfl
@[simp] theorem State.jumpPast_phase (j : Int) : (s.jumpPast j).phase = s.phase := rfl
@[simp] theorem State.jumpPast_ir (j : Int) : (s.jumpPast j).ir = s.ir := rfl
@[simp] theorem State.jumpPast_scanJ (j : Int) : (s.jumpPast j).scanJ = j := rfl
@[simp] theorem State.jumpPast_depth (j : Int) : (s.jumpPast j).depth = 0 := rfl
@[simp] theorem State.jumpPast_clrA (j : Int) : (s.jumpPast j).clrA = s.clrA := rfl
@[simp] theorem State.jumpPast_tapeUnknown (j : Int) : (s.jumpPast j).tapeUnknown = s.tapeUnknown := rfl
@[simp] theorem State.jumpPast_outBytes (j : Int) : (s.jumpPast j).outBytes = s.outBytes := rfl
@[simp] theorem State.jumpPast_inAnswers (j : Int) : (s.jumpPast j).inAnswers = s.inAnswers := rfl
@[simp] theorem State.jumpPast_script (j : Int) : (s.jumpPast j).script = s.script := rfl
@[simp] theorem State.jumpPast_tick (j : Int) : (s.jumpPast j).tick = s.tick := rfl
@[simp] theorem State.jumpPast_inputAt (j : Int) (k : Nat) : (s.jumpPast j).inputAt k = s.inputAt k := rfl
@[simp] theorem State.jumpPast_now (j : Int) : (s.jumpPast j).now = s.now := rfl
@[simp] theorem State.jumpPast_answer (j : Int) : (s.jumpPast j).answer = s.answer := rfl
@[simp] theorem State.jumpPast_cell (j : Int) (a : Nat) : (s.jumpPast j).cell a = s.cell a := rfl
@[simp] theorem State.jumpPast_current (j : Int) : (s.jumpPast j).current = s.current := rfl
@[simp] theorem State.jumpPast_progByte (j : Int) (k : Nat) : (s.jumpPast j).progByte k = s.progByte k := rfl

/-! ### `State.latchIr` -/

@[simp] theorem State.latchIr_tape : s.latchIr.tape = s.tape := rfl
@[simp] theorem State.latchIr_dp : s.latchIr.dp = s.dp := rfl
@[simp] theorem State.latchIr_pc : s.latchIr.pc = s.pc := rfl
@[simp] theorem State.latchIr_prog : s.latchIr.prog = s.prog := rfl
@[simp] theorem State.latchIr_plen : s.latchIr.plen = s.plen := rfl
@[simp] theorem State.latchIr_state : s.latchIr.state = s.state := rfl
@[simp] theorem State.latchIr_phase : s.latchIr.phase = s.phase := rfl
@[simp] theorem State.latchIr_ir : s.latchIr.ir = s.progByte s.pc := rfl
@[simp] theorem State.latchIr_scanJ : s.latchIr.scanJ = s.scanJ := rfl
@[simp] theorem State.latchIr_depth : s.latchIr.depth = s.depth := rfl
@[simp] theorem State.latchIr_clrA : s.latchIr.clrA = s.clrA := rfl
@[simp] theorem State.latchIr_tapeUnknown : s.latchIr.tapeUnknown = s.tapeUnknown := rfl
@[simp] theorem State.latchIr_outBytes : s.latchIr.outBytes = s.outBytes := rfl
@[simp] theorem State.latchIr_inAnswers : s.latchIr.inAnswers = s.inAnswers := rfl
@[simp] theorem State.latchIr_script : s.latchIr.script = s.script := rfl
@[simp] theorem State.latchIr_tick : s.latchIr.tick = s.tick := rfl
@[simp] theorem State.latchIr_inputAt (k : Nat) : s.latchIr.inputAt k = s.inputAt k := rfl
@[simp] theorem State.latchIr_now : s.latchIr.now = s.now := rfl
@[simp] theorem State.latchIr_answer : s.latchIr.answer = s.answer := rfl
@[simp] theorem State.latchIr_cell (a : Nat) : s.latchIr.cell a = s.cell a := rfl
@[simp] theorem State.latchIr_current : s.latchIr.current = s.current := rfl
@[simp] theorem State.latchIr_progByte (k : Nat) : s.latchIr.progByte k = s.progByte k := rfl

/-! ### `State.takeStart` -/

@[simp] theorem State.takeStart_tape : s.takeStart.tape = s.tape := rfl
@[simp] theorem State.takeStart_dp : s.takeStart.dp = s.dp := rfl
@[simp] theorem State.takeStart_pc : s.takeStart.pc = s.pc := rfl
@[simp] theorem State.takeStart_prog : s.takeStart.prog = s.prog := rfl
@[simp] theorem State.takeStart_plen : s.takeStart.plen = s.plen := rfl
@[simp] theorem State.takeStart_state : s.takeStart.state = .running := rfl
@[simp] theorem State.takeStart_phase : s.takeStart.phase = s.phase := rfl
@[simp] theorem State.takeStart_ir : s.takeStart.ir = s.ir := rfl
@[simp] theorem State.takeStart_scanJ : s.takeStart.scanJ = s.scanJ := rfl
@[simp] theorem State.takeStart_depth : s.takeStart.depth = s.depth := rfl
@[simp] theorem State.takeStart_clrA : s.takeStart.clrA = s.clrA := rfl
@[simp] theorem State.takeStart_tapeUnknown : s.takeStart.tapeUnknown = none := rfl
@[simp] theorem State.takeStart_outBytes : s.takeStart.outBytes = [] := rfl
@[simp] theorem State.takeStart_inAnswers : s.takeStart.inAnswers = 0 := rfl
@[simp] theorem State.takeStart_script : s.takeStart.script = s.script := rfl
@[simp] theorem State.takeStart_tick : s.takeStart.tick = s.tick := rfl
@[simp] theorem State.takeStart_inputAt (k : Nat) : s.takeStart.inputAt k = s.inputAt k := rfl
@[simp] theorem State.takeStart_now : s.takeStart.now = s.now := rfl
@[simp] theorem State.takeStart_answer : s.takeStart.answer = s.answer := rfl
@[simp] theorem State.takeStart_cell (a : Nat) : s.takeStart.cell a = s.cell a := rfl
@[simp] theorem State.takeStart_current : s.takeStart.current = s.current := rfl
@[simp] theorem State.takeStart_progByte (k : Nat) : s.takeStart.progByte k = s.progByte k := rfl

/-! ### `State.enterRun` -/

@[simp] theorem State.enterRun_tape : s.enterRun.tape = s.tape := rfl
@[simp] theorem State.enterRun_dp : s.enterRun.dp = 0 := rfl
@[simp] theorem State.enterRun_pc : s.enterRun.pc = 0 := rfl
@[simp] theorem State.enterRun_prog : s.enterRun.prog = s.prog := rfl
@[simp] theorem State.enterRun_plen : s.enterRun.plen = s.plen := rfl
@[simp] theorem State.enterRun_state : s.enterRun.state = s.state := rfl
@[simp] theorem State.enterRun_phase : s.enterRun.phase = .fetch := rfl
@[simp] theorem State.enterRun_ir : s.enterRun.ir = s.ir := rfl
@[simp] theorem State.enterRun_scanJ : s.enterRun.scanJ = s.scanJ := rfl
@[simp] theorem State.enterRun_depth : s.enterRun.depth = s.depth := rfl
@[simp] theorem State.enterRun_clrA : s.enterRun.clrA = s.clrA := rfl
@[simp] theorem State.enterRun_tapeUnknown : s.enterRun.tapeUnknown = s.tapeUnknown := rfl
@[simp] theorem State.enterRun_outBytes : s.enterRun.outBytes = s.outBytes := rfl
@[simp] theorem State.enterRun_inAnswers : s.enterRun.inAnswers = s.inAnswers := rfl
@[simp] theorem State.enterRun_script : s.enterRun.script = s.script := rfl
@[simp] theorem State.enterRun_tick : s.enterRun.tick = s.tick := rfl
@[simp] theorem State.enterRun_inputAt (k : Nat) : s.enterRun.inputAt k = s.inputAt k := rfl
@[simp] theorem State.enterRun_now : s.enterRun.now = s.now := rfl
@[simp] theorem State.enterRun_answer : s.enterRun.answer = s.answer := rfl
@[simp] theorem State.enterRun_cell (a : Nat) : s.enterRun.cell a = s.cell a := rfl
@[simp] theorem State.enterRun_progByte (k : Nat) : s.enterRun.progByte k = s.progByte k := rfl

/-! ### `State.startRun` -/

@[simp] theorem State.startRun_tape : s.startRun.tape = [] := rfl
@[simp] theorem State.startRun_dp : s.startRun.dp = 0 := rfl
@[simp] theorem State.startRun_pc : s.startRun.pc = 0 := rfl
@[simp] theorem State.startRun_prog : s.startRun.prog = s.prog := rfl
@[simp] theorem State.startRun_plen : s.startRun.plen = s.plen := rfl
@[simp] theorem State.startRun_state : s.startRun.state = .running := rfl
@[simp] theorem State.startRun_phase : s.startRun.phase = .fetch := rfl
@[simp] theorem State.startRun_ir : s.startRun.ir = s.ir := rfl
@[simp] theorem State.startRun_scanJ : s.startRun.scanJ = s.scanJ := rfl
@[simp] theorem State.startRun_depth : s.startRun.depth = s.depth := rfl
@[simp] theorem State.startRun_clrA : s.startRun.clrA = s.clrA := rfl
@[simp] theorem State.startRun_tapeUnknown : s.startRun.tapeUnknown = none := rfl
@[simp] theorem State.startRun_outBytes : s.startRun.outBytes = [] := rfl
@[simp] theorem State.startRun_inAnswers : s.startRun.inAnswers = 0 := rfl
@[simp] theorem State.startRun_script : s.startRun.script = s.script := rfl
@[simp] theorem State.startRun_tick : s.startRun.tick = s.tick := rfl
@[simp] theorem State.startRun_inputAt (k : Nat) : s.startRun.inputAt k = s.inputAt k := rfl
@[simp] theorem State.startRun_now : s.startRun.now = s.now := rfl
@[simp] theorem State.startRun_answer : s.startRun.answer = s.answer := rfl
@[simp] theorem State.startRun_progByte (k : Nat) : s.startRun.progByte k = s.progByte k := rfl

/-! ### `State.resetBlock` -/

@[simp] theorem State.resetBlock_tape : s.resetBlock.tape = s.tape := rfl
@[simp] theorem State.resetBlock_dp : s.resetBlock.dp = 0 := rfl
@[simp] theorem State.resetBlock_pc : s.resetBlock.pc = 0 := rfl
@[simp] theorem State.resetBlock_prog : s.resetBlock.prog = s.prog := rfl
@[simp] theorem State.resetBlock_plen : s.resetBlock.plen = 0 := rfl
@[simp] theorem State.resetBlock_state : s.resetBlock.state = .idle := rfl
@[simp] theorem State.resetBlock_phase : s.resetBlock.phase = .halt := rfl
@[simp] theorem State.resetBlock_ir : s.resetBlock.ir = s.ir := rfl
@[simp] theorem State.resetBlock_scanJ : s.resetBlock.scanJ = s.scanJ := rfl
@[simp] theorem State.resetBlock_depth : s.resetBlock.depth = s.depth := rfl
@[simp] theorem State.resetBlock_clrA : s.resetBlock.clrA = s.clrA := rfl
@[simp] theorem State.resetBlock_tapeUnknown : s.resetBlock.tapeUnknown = some (s.tick + 1) := rfl
@[simp] theorem State.resetBlock_outBytes : s.resetBlock.outBytes = s.outBytes := rfl
@[simp] theorem State.resetBlock_inAnswers : s.resetBlock.inAnswers = s.inAnswers := rfl
@[simp] theorem State.resetBlock_script : s.resetBlock.script = s.script := rfl
@[simp] theorem State.resetBlock_tick : s.resetBlock.tick = s.tick := rfl
@[simp] theorem State.resetBlock_inputAt (k : Nat) : s.resetBlock.inputAt k = s.inputAt k := rfl
@[simp] theorem State.resetBlock_now : s.resetBlock.now = s.now := rfl
@[simp] theorem State.resetBlock_answer : s.resetBlock.answer = s.answer := rfl
@[simp] theorem State.resetBlock_cell (a : Nat) : s.resetBlock.cell a = s.cell a := rfl
@[simp] theorem State.resetBlock_progByte (k : Nat) : s.resetBlock.progByte k = s.progByte k := rfl

/-! ### `State.tickOver` -/

@[simp] theorem State.tickOver_tape : s.tickOver.tape = s.tape := rfl
@[simp] theorem State.tickOver_dp : s.tickOver.dp = s.dp := rfl
@[simp] theorem State.tickOver_pc : s.tickOver.pc = s.pc := rfl
@[simp] theorem State.tickOver_prog : s.tickOver.prog = s.prog := rfl
@[simp] theorem State.tickOver_plen : s.tickOver.plen = s.plen := rfl
@[simp] theorem State.tickOver_state : s.tickOver.state = s.state := rfl
@[simp] theorem State.tickOver_phase : s.tickOver.phase = s.phase := rfl
@[simp] theorem State.tickOver_ir : s.tickOver.ir = s.ir := rfl
@[simp] theorem State.tickOver_scanJ : s.tickOver.scanJ = s.scanJ := rfl
@[simp] theorem State.tickOver_depth : s.tickOver.depth = s.depth := rfl
@[simp] theorem State.tickOver_clrA : s.tickOver.clrA = s.clrA := rfl
@[simp] theorem State.tickOver_tapeUnknown : s.tickOver.tapeUnknown = s.tapeUnknown := rfl
@[simp] theorem State.tickOver_outBytes : s.tickOver.outBytes = s.outBytes := rfl
@[simp] theorem State.tickOver_inAnswers : s.tickOver.inAnswers = s.inAnswers := rfl
@[simp] theorem State.tickOver_script : s.tickOver.script = s.script.tail := rfl
@[simp] theorem State.tickOver_tick : s.tickOver.tick = s.tick + 1 := rfl
@[simp] theorem State.tickOver_cell (a : Nat) : s.tickOver.cell a = s.cell a := rfl
@[simp] theorem State.tickOver_current : s.tickOver.current = s.current := rfl
@[simp] theorem State.tickOver_progByte (k : Nat) : s.tickOver.progByte k = s.progByte k := rfl

/-! ### `State.forget` -/

@[simp] theorem State.forget_tape : s.forget.tape = s.tape := rfl
@[simp] theorem State.forget_dp : s.forget.dp = s.dp := rfl
@[simp] theorem State.forget_pc : s.forget.pc = s.pc := rfl
@[simp] theorem State.forget_prog : s.forget.prog = s.prog := rfl
@[simp] theorem State.forget_plen : s.forget.plen = s.plen := rfl
@[simp] theorem State.forget_state : s.forget.state = s.state := rfl
@[simp] theorem State.forget_phase : s.forget.phase = s.phase := rfl
@[simp] theorem State.forget_ir : s.forget.ir = Config.irIdle s.tick := rfl
@[simp] theorem State.forget_scanJ : s.forget.scanJ = (Config.scanJIdle s.tick).toInt := rfl
@[simp] theorem State.forget_depth : s.forget.depth = (Config.depthIdle s.tick).toNat := rfl
@[simp] theorem State.forget_clrA : s.forget.clrA = Config.clrAIdle s.tick := rfl
@[simp] theorem State.forget_tapeUnknown : s.forget.tapeUnknown = s.tapeUnknown := rfl
@[simp] theorem State.forget_outBytes : s.forget.outBytes = s.outBytes := rfl
@[simp] theorem State.forget_inAnswers : s.forget.inAnswers = s.inAnswers := rfl
@[simp] theorem State.forget_script : s.forget.script = s.script := rfl
@[simp] theorem State.forget_tick : s.forget.tick = s.tick := rfl
@[simp] theorem State.forget_inputAt (k : Nat) : s.forget.inputAt k = s.inputAt k := rfl
@[simp] theorem State.forget_now : s.forget.now = s.now := rfl
@[simp] theorem State.forget_answer : s.forget.answer = s.answer := rfl
@[simp] theorem State.forget_cell (a : Nat) : s.forget.cell a = s.cell a := rfl
@[simp] theorem State.forget_current : s.forget.current = s.current := rfl
@[simp] theorem State.forget_progByte (k : Nat) : s.forget.progByte k = s.progByte k := rfl

/-! ### `State.rephase` -/

@[simp] theorem State.rephase_tape : s.rephase.tape = s.tape := rfl
@[simp] theorem State.rephase_dp : s.rephase.dp = s.dp := rfl
@[simp] theorem State.rephase_pc : s.rephase.pc = s.pc := rfl
@[simp] theorem State.rephase_prog : s.rephase.prog = s.prog := rfl
@[simp] theorem State.rephase_plen : s.rephase.plen = s.plen := rfl
@[simp] theorem State.rephase_state : s.rephase.state = s.state := rfl
@[simp] theorem State.rephase_phase : s.rephase.phase = boundaryPhase s.state := rfl
@[simp] theorem State.rephase_ir : s.rephase.ir = s.ir := rfl
@[simp] theorem State.rephase_scanJ : s.rephase.scanJ = s.scanJ := rfl
@[simp] theorem State.rephase_depth : s.rephase.depth = s.depth := rfl
@[simp] theorem State.rephase_clrA : s.rephase.clrA = s.clrA := rfl
@[simp] theorem State.rephase_tapeUnknown : s.rephase.tapeUnknown = s.tapeUnknown := rfl
@[simp] theorem State.rephase_outBytes : s.rephase.outBytes = s.outBytes := rfl
@[simp] theorem State.rephase_inAnswers : s.rephase.inAnswers = s.inAnswers := rfl
@[simp] theorem State.rephase_script : s.rephase.script = s.script := rfl
@[simp] theorem State.rephase_tick : s.rephase.tick = s.tick := rfl
@[simp] theorem State.rephase_inputAt (k : Nat) : s.rephase.inputAt k = s.inputAt k := rfl
@[simp] theorem State.rephase_now : s.rephase.now = s.now := rfl
@[simp] theorem State.rephase_answer : s.rephase.answer = s.answer := rfl
@[simp] theorem State.rephase_cell (a : Nat) : s.rephase.cell a = s.cell a := rfl
@[simp] theorem State.rephase_current : s.rephase.current = s.current := rfl
@[simp] theorem State.rephase_progByte (k : Nat) : s.rephase.progByte k = s.progByte k := rfl

/-! ### `State.boundary`: the frame of every step's end -/

@[simp] theorem State.boundary_tape : s.boundary.tape = s.tape := rfl
@[simp] theorem State.boundary_dp : s.boundary.dp = s.dp := rfl
@[simp] theorem State.boundary_pc : s.boundary.pc = s.pc := rfl
@[simp] theorem State.boundary_prog : s.boundary.prog = s.prog := rfl
@[simp] theorem State.boundary_plen : s.boundary.plen = s.plen := rfl
@[simp] theorem State.boundary_state : s.boundary.state = s.state := rfl
@[simp] theorem State.boundary_phase : s.boundary.phase = boundaryPhase s.state := rfl
@[simp] theorem State.boundary_ir : s.boundary.ir = Config.irIdle s.tick := rfl
@[simp] theorem State.boundary_scanJ : s.boundary.scanJ = (Config.scanJIdle s.tick).toInt := rfl
@[simp] theorem State.boundary_depth : s.boundary.depth = (Config.depthIdle s.tick).toNat := rfl
@[simp] theorem State.boundary_clrA : s.boundary.clrA = Config.clrAIdle s.tick := rfl
@[simp] theorem State.boundary_tapeUnknown : s.boundary.tapeUnknown = s.tapeUnknown := rfl
@[simp] theorem State.boundary_outBytes : s.boundary.outBytes = s.outBytes := rfl
@[simp] theorem State.boundary_inAnswers : s.boundary.inAnswers = s.inAnswers := rfl
@[simp] theorem State.boundary_script : s.boundary.script = s.script.tail := rfl
@[simp] theorem State.boundary_tick : s.boundary.tick = s.tick + 1 := rfl
@[simp] theorem State.boundary_cell (a : Nat) : s.boundary.cell a = s.cell a := rfl
@[simp] theorem State.boundary_current : s.boundary.current = s.current := rfl
@[simp] theorem State.boundary_progByte (k : Nat) : s.boundary.progByte k = s.progByte k := rfl

/-! ### `State.toPhase` -/

@[simp] theorem State.toPhase_tape (p : Phase) : (s.toPhase p).tape = s.tape := rfl
@[simp] theorem State.toPhase_dp (p : Phase) : (s.toPhase p).dp = s.dp := rfl
@[simp] theorem State.toPhase_pc (p : Phase) : (s.toPhase p).pc = s.pc := rfl
@[simp] theorem State.toPhase_prog (p : Phase) : (s.toPhase p).prog = s.prog := rfl
@[simp] theorem State.toPhase_plen (p : Phase) : (s.toPhase p).plen = s.plen := rfl
@[simp] theorem State.toPhase_state (p : Phase) : (s.toPhase p).state = s.state := rfl
@[simp] theorem State.toPhase_phase (p : Phase) : (s.toPhase p).phase = p := rfl
@[simp] theorem State.toPhase_ir (p : Phase) : (s.toPhase p).ir = s.ir := rfl
@[simp] theorem State.toPhase_scanJ (p : Phase) : (s.toPhase p).scanJ = s.scanJ := rfl
@[simp] theorem State.toPhase_depth (p : Phase) : (s.toPhase p).depth = s.depth := rfl
@[simp] theorem State.toPhase_clrA (p : Phase) : (s.toPhase p).clrA = s.clrA := rfl
@[simp] theorem State.toPhase_tapeUnknown (p : Phase) : (s.toPhase p).tapeUnknown = s.tapeUnknown := rfl
@[simp] theorem State.toPhase_outBytes (p : Phase) : (s.toPhase p).outBytes = s.outBytes := rfl
@[simp] theorem State.toPhase_inAnswers (p : Phase) : (s.toPhase p).inAnswers = s.inAnswers := rfl
@[simp] theorem State.toPhase_script (p : Phase) : (s.toPhase p).script = s.script := rfl
@[simp] theorem State.toPhase_tick (p : Phase) : (s.toPhase p).tick = s.tick := rfl
@[simp] theorem State.toPhase_inputAt (p : Phase) (k : Nat) : (s.toPhase p).inputAt k = s.inputAt k := rfl
@[simp] theorem State.toPhase_now (p : Phase) : (s.toPhase p).now = s.now := rfl
@[simp] theorem State.toPhase_answer (p : Phase) : (s.toPhase p).answer = s.answer := rfl
@[simp] theorem State.toPhase_cell (p : Phase) (a : Nat) : (s.toPhase p).cell a = s.cell a := rfl
@[simp] theorem State.toPhase_current (p : Phase) : (s.toPhase p).current = s.current := rfl
@[simp] theorem State.toPhase_progByte (p : Phase) (k : Nat) : (s.toPhase p).progByte k = s.progByte k := rfl

/-! ### `State.enterClear` -/

@[simp] theorem State.enterClear_tape : s.enterClear.tape = s.tape := rfl
@[simp] theorem State.enterClear_dp : s.enterClear.dp = s.dp := rfl
@[simp] theorem State.enterClear_pc : s.enterClear.pc = s.pc := rfl
@[simp] theorem State.enterClear_prog : s.enterClear.prog = s.prog := rfl
@[simp] theorem State.enterClear_plen : s.enterClear.plen = s.plen := rfl
@[simp] theorem State.enterClear_state : s.enterClear.state = .running := rfl
@[simp] theorem State.enterClear_phase : s.enterClear.phase = .clear := rfl
@[simp] theorem State.enterClear_ir : s.enterClear.ir = s.ir := rfl
@[simp] theorem State.enterClear_scanJ : s.enterClear.scanJ = s.scanJ := rfl
@[simp] theorem State.enterClear_depth : s.enterClear.depth = s.depth := rfl
@[simp] theorem State.enterClear_clrA : s.enterClear.clrA = 0 := rfl
@[simp] theorem State.enterClear_tapeUnknown : s.enterClear.tapeUnknown = none := rfl
@[simp] theorem State.enterClear_outBytes : s.enterClear.outBytes = [] := rfl
@[simp] theorem State.enterClear_inAnswers : s.enterClear.inAnswers = 0 := rfl
@[simp] theorem State.enterClear_script : s.enterClear.script = s.script := rfl
@[simp] theorem State.enterClear_tick : s.enterClear.tick = s.tick := rfl
@[simp] theorem State.enterClear_inputAt (k : Nat) : s.enterClear.inputAt k = s.inputAt k := rfl
@[simp] theorem State.enterClear_now : s.enterClear.now = s.now := rfl
@[simp] theorem State.enterClear_answer : s.enterClear.answer = s.answer := rfl
@[simp] theorem State.enterClear_cell (a : Nat) : s.enterClear.cell a = s.cell a := rfl
@[simp] theorem State.enterClear_current : s.enterClear.current = s.current := rfl
@[simp] theorem State.enterClear_progByte (k : Nat) : s.enterClear.progByte k = s.progByte k := rfl

/-! ### `State.clearOne` -/

@[simp] theorem State.clearOne_tape : s.clearOne.tape = s.tape.store (some Config.blankCell) s.clrA.toNat 0 := rfl
@[simp] theorem State.clearOne_dp : s.clearOne.dp = s.dp := rfl
@[simp] theorem State.clearOne_pc : s.clearOne.pc = s.pc := rfl
@[simp] theorem State.clearOne_prog : s.clearOne.prog = s.prog := rfl
@[simp] theorem State.clearOne_plen : s.clearOne.plen = s.plen := rfl
@[simp] theorem State.clearOne_state : s.clearOne.state = s.state := rfl
@[simp] theorem State.clearOne_phase : s.clearOne.phase = s.phase := rfl
@[simp] theorem State.clearOne_ir : s.clearOne.ir = s.ir := rfl
@[simp] theorem State.clearOne_scanJ : s.clearOne.scanJ = s.scanJ := rfl
@[simp] theorem State.clearOne_depth : s.clearOne.depth = s.depth := rfl
@[simp] theorem State.clearOne_clrA : s.clearOne.clrA = s.clrA + 1 := rfl
@[simp] theorem State.clearOne_tapeUnknown : s.clearOne.tapeUnknown = s.tapeUnknown := rfl
@[simp] theorem State.clearOne_outBytes : s.clearOne.outBytes = s.outBytes := rfl
@[simp] theorem State.clearOne_inAnswers : s.clearOne.inAnswers = s.inAnswers := rfl
@[simp] theorem State.clearOne_script : s.clearOne.script = s.script := rfl
@[simp] theorem State.clearOne_tick : s.clearOne.tick = s.tick := rfl
@[simp] theorem State.clearOne_inputAt (k : Nat) : s.clearOne.inputAt k = s.inputAt k := rfl
@[simp] theorem State.clearOne_now : s.clearOne.now = s.now := rfl
@[simp] theorem State.clearOne_answer : s.clearOne.answer = s.answer := rfl
@[simp] theorem State.clearOne_progByte (k : Nat) : s.clearOne.progByte k = s.progByte k := rfl

/-! ### `State.enterScan` -/

@[simp] theorem State.enterScan_tape (p : Phase) (j : Int) : (s.enterScan p j).tape = s.tape := rfl
@[simp] theorem State.enterScan_dp (p : Phase) (j : Int) : (s.enterScan p j).dp = s.dp := rfl
@[simp] theorem State.enterScan_pc (p : Phase) (j : Int) : (s.enterScan p j).pc = s.pc := rfl
@[simp] theorem State.enterScan_prog (p : Phase) (j : Int) : (s.enterScan p j).prog = s.prog := rfl
@[simp] theorem State.enterScan_plen (p : Phase) (j : Int) : (s.enterScan p j).plen = s.plen := rfl
@[simp] theorem State.enterScan_state (p : Phase) (j : Int) : (s.enterScan p j).state = s.state := rfl
@[simp] theorem State.enterScan_phase (p : Phase) (j : Int) : (s.enterScan p j).phase = p := rfl
@[simp] theorem State.enterScan_ir (p : Phase) (j : Int) : (s.enterScan p j).ir = s.ir := rfl
@[simp] theorem State.enterScan_scanJ (p : Phase) (j : Int) : (s.enterScan p j).scanJ = j := rfl
@[simp] theorem State.enterScan_depth (p : Phase) (j : Int) : (s.enterScan p j).depth = 1 := rfl
@[simp] theorem State.enterScan_clrA (p : Phase) (j : Int) : (s.enterScan p j).clrA = s.clrA := rfl
@[simp] theorem State.enterScan_tapeUnknown (p : Phase) (j : Int) : (s.enterScan p j).tapeUnknown = s.tapeUnknown := rfl
@[simp] theorem State.enterScan_outBytes (p : Phase) (j : Int) : (s.enterScan p j).outBytes = s.outBytes := rfl
@[simp] theorem State.enterScan_inAnswers (p : Phase) (j : Int) : (s.enterScan p j).inAnswers = s.inAnswers := rfl
@[simp] theorem State.enterScan_script (p : Phase) (j : Int) : (s.enterScan p j).script = s.script := rfl
@[simp] theorem State.enterScan_tick (p : Phase) (j : Int) : (s.enterScan p j).tick = s.tick := rfl
@[simp] theorem State.enterScan_inputAt (p : Phase) (j : Int) (k : Nat) : (s.enterScan p j).inputAt k = s.inputAt k := rfl
@[simp] theorem State.enterScan_now (p : Phase) (j : Int) : (s.enterScan p j).now = s.now := rfl
@[simp] theorem State.enterScan_answer (p : Phase) (j : Int) : (s.enterScan p j).answer = s.answer := rfl
@[simp] theorem State.enterScan_cell (p : Phase) (j : Int) (a : Nat) : (s.enterScan p j).cell a = s.cell a := rfl
@[simp] theorem State.enterScan_current (p : Phase) (j : Int) : (s.enterScan p j).current = s.current := rfl
@[simp] theorem State.enterScan_progByte (p : Phase) (j : Int) (k : Nat) : (s.enterScan p j).progByte k = s.progByte k := rfl

/-! ### `State.scanOn` -/

@[simp] theorem State.scanOn_tape (j : Int) (d : Nat) : (s.scanOn j d).tape = s.tape := rfl
@[simp] theorem State.scanOn_dp (j : Int) (d : Nat) : (s.scanOn j d).dp = s.dp := rfl
@[simp] theorem State.scanOn_pc (j : Int) (d : Nat) : (s.scanOn j d).pc = s.pc := rfl
@[simp] theorem State.scanOn_prog (j : Int) (d : Nat) : (s.scanOn j d).prog = s.prog := rfl
@[simp] theorem State.scanOn_plen (j : Int) (d : Nat) : (s.scanOn j d).plen = s.plen := rfl
@[simp] theorem State.scanOn_state (j : Int) (d : Nat) : (s.scanOn j d).state = s.state := rfl
@[simp] theorem State.scanOn_phase (j : Int) (d : Nat) : (s.scanOn j d).phase = s.phase := rfl
@[simp] theorem State.scanOn_ir (j : Int) (d : Nat) : (s.scanOn j d).ir = s.ir := rfl
@[simp] theorem State.scanOn_scanJ (j : Int) (d : Nat) : (s.scanOn j d).scanJ = j := rfl
@[simp] theorem State.scanOn_depth (j : Int) (d : Nat) : (s.scanOn j d).depth = d := rfl
@[simp] theorem State.scanOn_clrA (j : Int) (d : Nat) : (s.scanOn j d).clrA = s.clrA := rfl
@[simp] theorem State.scanOn_tapeUnknown (j : Int) (d : Nat) : (s.scanOn j d).tapeUnknown = s.tapeUnknown := rfl
@[simp] theorem State.scanOn_outBytes (j : Int) (d : Nat) : (s.scanOn j d).outBytes = s.outBytes := rfl
@[simp] theorem State.scanOn_inAnswers (j : Int) (d : Nat) : (s.scanOn j d).inAnswers = s.inAnswers := rfl
@[simp] theorem State.scanOn_script (j : Int) (d : Nat) : (s.scanOn j d).script = s.script := rfl
@[simp] theorem State.scanOn_tick (j : Int) (d : Nat) : (s.scanOn j d).tick = s.tick := rfl
@[simp] theorem State.scanOn_inputAt (j : Int) (d : Nat) (k : Nat) : (s.scanOn j d).inputAt k = s.inputAt k := rfl
@[simp] theorem State.scanOn_now (j : Int) (d : Nat) : (s.scanOn j d).now = s.now := rfl
@[simp] theorem State.scanOn_answer (j : Int) (d : Nat) : (s.scanOn j d).answer = s.answer := rfl
@[simp] theorem State.scanOn_cell (j : Int) (d : Nat) (a : Nat) : (s.scanOn j d).cell a = s.cell a := rfl
@[simp] theorem State.scanOn_current (j : Int) (d : Nat) : (s.scanOn j d).current = s.current := rfl
@[simp] theorem State.scanOn_progByte (j : Int) (d : Nat) (k : Nat) : (s.scanOn j d).progByte k = s.progByte k := rfl

/-! ### The load port's conditional writes -/

@[simp] theorem State.loadProg_tape : s.loadProg.tape = s.tape := by unfold State.loadProg; split <;> rfl
@[simp] theorem State.loadProg_dp : s.loadProg.dp = s.dp := by unfold State.loadProg; split <;> rfl
@[simp] theorem State.loadProg_pc : s.loadProg.pc = s.pc := by unfold State.loadProg; split <;> rfl
@[simp] theorem State.loadProg_plen : s.loadProg.plen = s.plen := by unfold State.loadProg; split <;> rfl
@[simp] theorem State.loadProg_state : s.loadProg.state = s.state := by unfold State.loadProg; split <;> rfl
@[simp] theorem State.loadProg_phase : s.loadProg.phase = s.phase := by unfold State.loadProg; split <;> rfl
@[simp] theorem State.loadProg_ir : s.loadProg.ir = s.ir := by unfold State.loadProg; split <;> rfl
@[simp] theorem State.loadProg_scanJ : s.loadProg.scanJ = s.scanJ := by unfold State.loadProg; split <;> rfl
@[simp] theorem State.loadProg_depth : s.loadProg.depth = s.depth := by unfold State.loadProg; split <;> rfl
@[simp] theorem State.loadProg_clrA : s.loadProg.clrA = s.clrA := by unfold State.loadProg; split <;> rfl
@[simp] theorem State.loadProg_tapeUnknown : s.loadProg.tapeUnknown = s.tapeUnknown := by unfold State.loadProg; split <;> rfl
@[simp] theorem State.loadProg_outBytes : s.loadProg.outBytes = s.outBytes := by unfold State.loadProg; split <;> rfl
@[simp] theorem State.loadProg_inAnswers : s.loadProg.inAnswers = s.inAnswers := by unfold State.loadProg; split <;> rfl
@[simp] theorem State.loadProg_script : s.loadProg.script = s.script := by unfold State.loadProg; split <;> rfl
@[simp] theorem State.loadProg_tick : s.loadProg.tick = s.tick := by unfold State.loadProg; split <;> rfl
@[simp] theorem State.loadProg_now : s.loadProg.now = s.now := by unfold State.loadProg; split <;> rfl
@[simp] theorem State.loadProg_cell (a : Nat) : s.loadProg.cell a = s.cell a := by unfold State.loadProg; split <;> rfl

@[simp] theorem State.loadPlen_tape : s.loadPlen.tape = s.tape := by unfold State.loadPlen; split <;> rfl
@[simp] theorem State.loadPlen_dp : s.loadPlen.dp = s.dp := by unfold State.loadPlen; split <;> rfl
@[simp] theorem State.loadPlen_pc : s.loadPlen.pc = s.pc := by unfold State.loadPlen; split <;> rfl
@[simp] theorem State.loadPlen_prog : s.loadPlen.prog = s.prog := by unfold State.loadPlen; split <;> rfl
@[simp] theorem State.loadPlen_state : s.loadPlen.state = s.state := by unfold State.loadPlen; split <;> rfl
@[simp] theorem State.loadPlen_phase : s.loadPlen.phase = s.phase := by unfold State.loadPlen; split <;> rfl
@[simp] theorem State.loadPlen_ir : s.loadPlen.ir = s.ir := by unfold State.loadPlen; split <;> rfl
@[simp] theorem State.loadPlen_scanJ : s.loadPlen.scanJ = s.scanJ := by unfold State.loadPlen; split <;> rfl
@[simp] theorem State.loadPlen_depth : s.loadPlen.depth = s.depth := by unfold State.loadPlen; split <;> rfl
@[simp] theorem State.loadPlen_clrA : s.loadPlen.clrA = s.clrA := by unfold State.loadPlen; split <;> rfl
@[simp] theorem State.loadPlen_tapeUnknown : s.loadPlen.tapeUnknown = s.tapeUnknown := by unfold State.loadPlen; split <;> rfl
@[simp] theorem State.loadPlen_outBytes : s.loadPlen.outBytes = s.outBytes := by unfold State.loadPlen; split <;> rfl
@[simp] theorem State.loadPlen_inAnswers : s.loadPlen.inAnswers = s.inAnswers := by unfold State.loadPlen; split <;> rfl
@[simp] theorem State.loadPlen_script : s.loadPlen.script = s.script := by unfold State.loadPlen; split <;> rfl
@[simp] theorem State.loadPlen_tick : s.loadPlen.tick = s.tick := by unfold State.loadPlen; split <;> rfl
@[simp] theorem State.loadPlen_now : s.loadPlen.now = s.now := by unfold State.loadPlen; split <;> rfl
@[simp] theorem State.loadPlen_cell (a : Nat) : s.loadPlen.cell a = s.cell a := by unfold State.loadPlen; split <;> rfl

/-! ### The two phases of a boundary -/

@[simp] theorem boundaryPhase_running : boundaryPhase .running = .fetch := rfl

theorem boundaryPhase_of_ne {e : RunState} (h : e ≠ .running) : boundaryPhase e = .halt := if_neg h

@[simp] theorem Cause.code_ne_running (c : Cause) : c.code ≠ .running := by cases c <;> decide

@[simp] theorem Cause.code_ne_idle (c : Cause) : c.code ≠ .idle := by cases c <;> decide

/-! ### `State.endScan` -/

@[simp] theorem State.endScan_tape (r : ScanEnd) : (s.endScan r).tape = s.tape := by cases r <;> rfl
@[simp] theorem State.endScan_dp (r : ScanEnd) : (s.endScan r).dp = s.dp := by cases r <;> rfl
@[simp] theorem State.endScan_prog (r : ScanEnd) : (s.endScan r).prog = s.prog := by cases r <;> rfl
@[simp] theorem State.endScan_plen (r : ScanEnd) : (s.endScan r).plen = s.plen := by cases r <;> rfl
@[simp] theorem State.endScan_ir (r : ScanEnd) : (s.endScan r).ir = s.ir := by cases r <;> rfl
@[simp] theorem State.endScan_clrA (r : ScanEnd) : (s.endScan r).clrA = s.clrA := by cases r <;> rfl
@[simp] theorem State.endScan_tapeUnknown (r : ScanEnd) : (s.endScan r).tapeUnknown = s.tapeUnknown := by cases r <;> rfl
@[simp] theorem State.endScan_outBytes (r : ScanEnd) : (s.endScan r).outBytes = s.outBytes := by cases r <;> rfl
@[simp] theorem State.endScan_inAnswers (r : ScanEnd) : (s.endScan r).inAnswers = s.inAnswers := by cases r <;> rfl
@[simp] theorem State.endScan_script (r : ScanEnd) : (s.endScan r).script = s.script := by cases r <;> rfl
@[simp] theorem State.endScan_tick (r : ScanEnd) : (s.endScan r).tick = s.tick := by cases r <;> rfl

end Sys2Proof.Machine
end

