-- ==== Sys2Proof/Laws/Exec.lean ====
section
/-!
SUPPORT. Everything an instruction, and everything a step, can do: one inversion each. Later proofs take `exec_effect` and
`step_effect` apart instead of unfolding the meanings.
-/
namespace Sys2Proof.Machine

/-! ### The shared operations -/

theorem mapNext_eq_next {f : State → State} {o : Host.Outcome State Fault Refusal} {t : State} :
    mapNext f o = .next t ↔ ∃ u, o = .next u ∧ f u = t := by
  cases o <;> simp [mapNext]

theorem mapNext_ite (f : State → State) (c : Prop) [Decidable c] (a b : Host.Outcome State Fault Refusal) :
    mapNext f (if c then a else b) = if c then mapNext f a else mapNext f b := by
  split <;> rfl

theorem State.atCell_of_lt {s : State} (h : s.dp.toNat < Config.tapeLen) (k : Host.Outcome State Fault Refusal) :
    s.atCell k = k := if_pos h

theorem State.onCell_of_lt {s : State} (h : s.dp.toNat < Config.tapeLen)
    (k : Byte → Host.Outcome State Fault Refusal) : s.onCell k = k s.current := if_pos h

theorem State.atCell_eq_next {s t : State} {k : Host.Outcome State Fault Refusal} (h : s.atCell k = .next t) :
    s.dp.toNat < Config.tapeLen ∧ k = .next t := by
  unfold State.atCell at h
  split at h
  · exact ⟨‹_›, h⟩
  · cases h

theorem isZero_iff (v : Byte) : isZero v = true ↔ v = 0 := by simp [isZero]

/-- A `[` on a zero cell is its scan's end. -/
theorem exec_jz_taken {s : State} (hd : s.dp.toNat < Config.tapeLen) (z : s.cell s.dp.toNat = 0) :
    exec .jz s = .next (s.endScan (scanFwd s s.pc)) := by
  have z' : isZero s.current = true := (isZero_iff _).2 z
  simp only [exec, execJz, State.onCell_of_lt hd, if_pos z']

/-- A `[` on a non-zero cell falls through. -/
theorem exec_jz_falls {s : State} (hd : s.dp.toNat < Config.tapeLen) (z : s.cell s.dp.toNat ≠ 0) :
    exec .jz s = .next s.retire := by
  have z' : ¬ isZero s.current = true := fun h => z ((isZero_iff _).1 h)
  simp only [exec, execJz, State.onCell_of_lt hd, if_neg z']

/-- A `]` on a non-zero cell is its scan's end. -/
theorem exec_jnz_taken {s : State} (hd : s.dp.toNat < Config.tapeLen) (z : s.cell s.dp.toNat ≠ 0) :
    exec .jnz s = .next (s.endScan (scanBwd s s.pc)) := by
  have z' : ¬ isZero s.current = true := fun h => z ((isZero_iff _).1 h)
  simp only [exec, execJnz, State.onCell_of_lt hd, if_neg z']

/-- A `]` on a zero cell falls through. -/
theorem exec_jnz_falls {s : State} (hd : s.dp.toNat < Config.tapeLen) (z : s.cell s.dp.toNat = 0) :
    exec .jnz s = .next s.retire := by
  have z' : isZero s.current = true := (isZero_iff _).2 z
  simp only [exec, execJnz, State.onCell_of_lt hd, if_pos z']

/-! ### One instruction -/

/-- The ways an instruction can lead from `s` to a next state. -/
inductive Effect (s : State) : Instr → State → Prop where
  | dpIncFault (h : Config.tapeLen ≤ s.dp.toNat + 1) : Effect s .dpInc (s.raiseFault .outOfBounds)
  | dpInc (h : s.dp.toNat + 1 < Config.tapeLen) : Effect s .dpInc { s.retire with dp := s.dp + 1 }
  | dpDecFault (h : s.dp = 0) : Effect s .dpDec (s.raiseFault .outOfBounds)
  | dpDec (h : s.dp ≠ 0) : Effect s .dpDec { s.retire with dp := s.dp - 1 }
  | cInc (h : s.dp.toNat < Config.tapeLen) : Effect s .cInc (s.setCurrent (s.current + 1)).retire
  | cDec (h : s.dp.toNat < Config.tapeLen) : Effect s .cDec (s.setCurrent (s.current - 1)).retire
  | out (h : s.dp.toNat < Config.tapeLen) (r : s.now.outReady = true) :
      Effect s .out { s.retire with outBytes := s.outBytes ++ [s.current] }
  | outWait (h : s.dp.toNat < Config.tapeLen) (r : s.now.outReady = false) : Effect s .out s
  | inpByte (v : Byte) (h : s.dp.toNat < Config.tapeLen) (r : s.answer = some (.byte v)) :
      Effect s .inp { (s.setCurrent v).retire with inAnswers := s.inAnswers + 1 }
  | inpEof (r : s.answer = some .eof) : Effect s .inp { s.retire with inAnswers := s.inAnswers + 1 }
  | inpWait (r : s.answer = none) : Effect s .inp s
  | jzFall (h : s.dp.toNat < Config.tapeLen) (z : s.current ≠ 0) : Effect s .jz s.retire
  | jz (h : s.dp.toNat < Config.tapeLen) (z : s.current = 0) : Effect s .jz (s.endScan (scanFwd s s.pc))
  | jnzFall (h : s.dp.toNat < Config.tapeLen) (z : s.current = 0) : Effect s .jnz s.retire
  | jnz (h : s.dp.toNat < Config.tapeLen) (z : s.current ≠ 0) : Effect s .jnz (s.endScan (scanBwd s s.pc))
  | nop (b : Byte) : Effect s (.nop b) s.retire

/-- An instruction that answers a next state does so in one of these ways. -/
theorem exec_effect {i : Instr} {s t : State} (h : exec i s = .next t) : Effect s i t := by
  cases i with
  | dpInc =>
    simp only [exec, execDpInc] at h
    split at h <;> cases h
    · exact .dpIncFault ‹_›
    · exact .dpInc (by omega)
  | dpDec =>
    simp only [exec, execDpDec] at h
    split at h <;> cases h
    · exact .dpDecFault ‹_›
    · exact .dpDec ‹_›
  | cInc => obtain ⟨hd, h⟩ := State.atCell_eq_next h; cases h; exact .cInc hd
  | cDec => obtain ⟨hd, h⟩ := State.atCell_eq_next h; cases h; exact .cDec hd
  | out =>
    obtain ⟨hd, h⟩ := State.atCell_eq_next h
    split at h <;> cases h
    · exact .out hd ‹_›
    · exact .outWait hd (by simpa using ‹¬ s.now.outReady = true›)
  | inp =>
    simp only [exec, execIn] at h
    split at h
    · cases h; exact .inpWait ‹_›
    · cases h; exact .inpEof ‹_›
    · obtain ⟨hd, h⟩ := State.atCell_eq_next h; cases h; exact .inpByte _ hd ‹_›
  | jz =>
    obtain ⟨hd, h⟩ := State.atCell_eq_next h
    split at h <;> cases h
    · exact .jz hd ((isZero_iff _).1 ‹_›)
    · exact .jzFall hd (fun z => ‹¬ _› ((isZero_iff _).2 z))
  | jnz =>
    obtain ⟨hd, h⟩ := State.atCell_eq_next h
    split at h <;> cases h
    · exact .jnzFall hd ((isZero_iff _).1 ‹_›)
    · exact .jnz hd (fun z => ‹¬ _› ((isZero_iff _).2 z))
  | nop b => cases h; exact .nop b

/-- With `DP < L`, every instruction answers a next state: none ever stops the model. -/
theorem exec_total (i : Instr) {s : State} (hd : s.dp.toNat < Config.tapeLen) : ∃ t, exec i s = .next t := by
  cases i with
  | dpInc => simp only [exec, execDpInc]; split <;> exact ⟨_, rfl⟩
  | dpDec => simp only [exec, execDpDec]; split <;> exact ⟨_, rfl⟩
  | cInc => simp only [exec, execCInc, State.onCell_of_lt hd]; exact ⟨_, rfl⟩
  | cDec => simp only [exec, execCDec, State.onCell_of_lt hd]; exact ⟨_, rfl⟩
  | out => simp only [exec, execOut, State.onCell_of_lt hd]; split <;> exact ⟨_, rfl⟩
  | inp =>
    simp only [exec, execIn]
    split
    · exact ⟨_, rfl⟩
    · exact ⟨_, rfl⟩
    · exact ⟨_, State.atCell_of_lt hd _⟩
  | jz => simp only [exec, execJz, State.onCell_of_lt hd]; split <;> exact ⟨_, rfl⟩
  | jnz => simp only [exec, execJnz, State.onCell_of_lt hd]; split <;> exact ⟨_, rfl⟩
  | nop b => exact ⟨_, rfl⟩

/-! ### One step -/

/-- The ways a step can lead from `s` to a state, the boundary's own changes apart. -/
inductive StepEffect (s : State) : State → Prop where
  | reset (h : s.now.rst = true) : StepEffect s s.resetBlock
  | start (h : s.now.rst = false) (n : s.state ≠ .running) (g : s.now.start = true) : StepEffect s s.startRun
  | load (h : s.now.rst = false) (n : s.state ≠ .running) (g : s.now.start = false) :
      StepEffect s s.loadProg.loadPlen
  | abort (h : s.now.rst = false) (r : s.state = .running) (a : s.abortTaken = true) :
      StepEffect s (s.haltRun .aborted)
  | done (h : s.now.rst = false) (r : s.state = .running) (a : s.abortTaken = false) (e : s.plen ≤ s.pc) :
      StepEffect s (s.haltRun .done)
  | exec {u : State} (h : s.now.rst = false) (r : s.state = .running) (a : s.abortTaken = false)
      (e : s.pc < s.plen) (x : Machine.exec s.fetched s.latchIr = .next u) : StepEffect s u

/-- A step that answers a next state does so in one of these ways. -/
theorem step_effect {s t : State} (h : step s = .next t) : ∃ u, StepEffect s u ∧ t = u.boundary := by
  simp only [step, machineStep] at h
  split at h
  · cases h; exact ⟨_, .reset ‹_›, rfl⟩
  · have hr : s.now.rst = false := by simpa using ‹¬ s.now.rst = true›
    split at h
    · have run : s.state = .running := ‹_›
      obtain ⟨u, hu, rfl⟩ := mapNext_eq_next.1 h
      refine ⟨u, ?_, rfl⟩
      simp only [runStep] at hu
      split at hu
      · cases hu; exact .abort hr run ‹_›
      · have ha : s.abortTaken = false := by simpa using ‹¬ s.abortTaken = true›
        split at hu
        · cases hu; exact .done hr run ha ‹_›
        · exact .exec hr run ha (by omega) hu
    · cases h
      refine ⟨_, ?_, rfl⟩
      unfold State.hostStep
      split
      · exact .start hr ‹_› ‹_›
      · exact .load hr ‹_› (by simpa using ‹¬ s.now.start = true›)

/-- All the load port does: one program byte and the program length, each on its own condition (R49). -/
theorem State.load_eq (s : State) : s.loadProg.loadPlen =
    { s with
      prog := if s.now.progWe = true ∧ s.now.progWaddr < Config.progMax then
        s.prog.store none s.now.progWaddr s.now.progWdata else s.prog
      plen := if s.now.plenWe = true ∧ s.now.plenWdata ≤ Config.progMax then s.now.plenWdata else s.plen } := by
  unfold State.loadPlen
  rw [State.loadProg_now]
  unfold State.loadProg
  split <;> split <;> rfl

/-! ### Where a step goes, given its inputs -/

theorem step_of_rst {s : State} (h : s.now.rst = true) : step s = .next s.resetBlock.boundary := if_pos h

theorem step_of_running {s : State} (h : s.now.rst = false) (r : s.state = .running) :
    step s = mapNext State.boundary (runStep s) := by
  simp [step, machineStep, h, r]

theorem step_of_not_running {s : State} (h : s.now.rst = false) (n : s.state ≠ .running) :
    step s = .next s.hostStep.boundary := by
  simp [step, machineStep, h, n]

end Sys2Proof.Machine
end

