-- ==== Sys2Proof/Laws/Scan.lean ====
section
/-!
SUPPORT. The bracket scans: what one scan finds, in terms of the brackets between its start and its end. The counter in
front of a byte is the counter the scan began with, plus the brackets that count up, minus those that count down.
-/
namespace Sys2Proof.Machine

variable {s : State}

theorem countBytes_succ (b : Byte) (i n : Nat) :
    countBytes s b i (n + 1) = (if s.progByte i = b then 1 else 0) + countBytes s b (i + 1) n := rfl

theorem countBytes_succ_right (b : Byte) (i n : Nat) :
    countBytes s b i (n + 1) = countBytes s b i n + (if s.progByte (i + n) = b then 1 else 0) := by
  induction n generalizing i with
  | zero => simp [countBytes]
  | succ n ih =>
    rw [countBytes_succ, ih, countBytes_succ, show i + 1 + n = i + (n + 1) by omega, Nat.add_assoc]

theorem countBytes_add (b : Byte) (i m n : Nat) :
    countBytes s b i (m + n) = countBytes s b i m + countBytes s b (i + m) n := by
  induction n with
  | zero => simp [countBytes]
  | succ n ih => rw [← Nat.add_assoc, countBytes_succ_right, ih, countBytes_succ_right, Nat.add_assoc, Nat.add_assoc]

/-- Two loop passes that agree wherever the index satisfies `P`, which the passes keep, scan alike. -/
theorem scanLoop_congr {f g : Int → Nat → ScanStep} {P : Int → Prop} (same : ∀ j d, P j → f j d = g j d)
    (keeps : ∀ j d j' d', P j → g j d = .more j' d' → P j') (n : Nat) (j : Int) (d : Nat) (hj : P j) :
    scanLoop f n j d = scanLoop g n j d := by
  induction n generalizing j d with
  | zero => rfl
  | succ n ih =>
    simp only [scanLoop, same j d hj]
    cases hg : g j d with
    | offEnd => rfl
    | found => rfl
    | more j' d' => exact ih j' d' (keeps j d j' d' hj hg)

theorem openByte_ne_closeByte : openByte ≠ closeByte := by decide

/-! ### Forward -/

/-- What a forward scan standing at `i` with counter `d` stops at: the first `]` that brings the counter to 0. -/
structure FwdStop (s : State) (i d m : Nat) : Prop where
  from_le : i ≤ m
  inside : m < s.plen
  closes : s.progByte m = closeByte
  last : d + countBytes s openByte i (m - i) = 1 + countBytes s closeByte i (m - i)
  before : ∀ n ≤ m - i, countBytes s closeByte i n < d + countBytes s openByte i n

theorem FwdStop.here {i d : Nat} (hi : i < s.plen) (hc : s.progByte i = closeByte) (hd : d = 1) : FwdStop s i d i where
  from_le := le_rfl
  inside := hi
  closes := hc
  last := by simp [countBytes, hd]
  before n hn := by
    have : n = 0 := by omega
    subst this; simp [countBytes, hd]

/-- One pass of the loop carries what the scan stops at to the next index and counter. -/
theorem fwdStop_step {i d m : Nat} (hd : 1 ≤ d) (hne : nest openByte closeByte (s.progByte i) d ≠ 0) :
    FwdStop s i d m ↔ FwdStop s (i + 1) (nest openByte closeByte (s.progByte i) d) m := by
  have hoc := openByte_ne_closeByte
  have eqn : ∀ n, d + countBytes s openByte i (n + 1) + countBytes s closeByte (i + 1) n =
      nest openByte closeByte (s.progByte i) d + countBytes s openByte (i + 1) n + countBytes s closeByte i (n + 1) := by
    intro n
    rw [countBytes_succ, countBytes_succ]
    unfold nest
    by_cases ho : s.progByte i = openByte
    · have hc : s.progByte i ≠ closeByte := ho ▸ hoc
      rw [if_pos ho, if_pos ho, if_neg hc]; omega
    · by_cases hc : s.progByte i = closeByte
      · rw [if_neg ho, if_neg ho, if_pos hc, if_pos hc]; omega
      · rw [if_neg ho, if_neg ho, if_neg hc, if_neg hc]; omega
  constructor
  · intro h
    have hlt : i < m := by
      rcases Nat.lt_or_eq_of_le h.from_le with hlt | rfl
      · exact hlt
      · exfalso
        have hl := h.last
        simp [countBytes] at hl
        apply hne
        rw [nest, h.closes, if_neg (Ne.symm hoc), if_pos rfl, hl]
    obtain ⟨k, rfl⟩ : ∃ k, m = i + 1 + k := ⟨m - i - 1, by omega⟩
    have e1 : i + 1 + k - i = k + 1 := by omega
    have e2 : i + 1 + k - (i + 1) = k := by omega
    refine ⟨by omega, h.inside, h.closes, ?_, fun n hn => ?_⟩
    · have := h.last
      rw [e1] at this
      rw [e2]
      have := eqn k
      omega
    · have := h.before (n + 1) (by omega)
      have := eqn n
      omega
  · intro h
    obtain ⟨k, rfl⟩ : ∃ k, m = i + 1 + k := ⟨m - i - 1, by have := h.from_le; omega⟩
    have e1 : i + 1 + k - i = k + 1 := by omega
    have e2 : i + 1 + k - (i + 1) = k := by omega
    refine ⟨by omega, h.inside, h.closes, ?_, fun n hn => ?_⟩
    · have := h.last
      rw [e2] at this
      rw [e1]
      have := eqn k
      omega
    · match n with
      | 0 => simp only [countBytes]; omega
      | n + 1 =>
        have := h.before n (by omega)
        have := eqn n
        omega

/-- The forward scan finds exactly what it stops at; with none, its index leaves the program at `PLEN`. -/
theorem scanLoop_fwd (n i d : Nat) (hd : 1 ≤ d) (hi : i ≤ s.plen) (hn : s.plen < n + i) :
    (∃ m : Nat, FwdStop s i d m ∧ scanLoop (scanFwdStep s) n i d = .found m) ∨
    ((∀ m, ¬ FwdStop s i d m) ∧ ∃ d', scanLoop (scanFwdStep s) n i d = .offEnd s.plen d') := by
  induction n generalizing i d with
  | zero => omega
  | succ n ih =>
    simp only [scanLoop, scanFwdStep, Int.toNat_natCast]
    by_cases hp : s.plen ≤ i
    · rw [if_pos (by exact_mod_cast hp)]
      have : i = s.plen := by omega
      subst this
      exact .inr ⟨fun m h => by have := h.from_le; have := h.inside; omega, d, rfl⟩
    · rw [if_neg (by exact_mod_cast hp)]
      by_cases hz : nest openByte closeByte (s.progByte i) d = 0
      · simp only [hz, if_true]
        refine .inl ⟨i, ?_, rfl⟩
        unfold nest at hz
        split at hz
        · omega
        · split at hz
          · exact .here (by omega) ‹_› (by omega)
          · omega
      · simp only [hz, if_false]
        have := ih (i + 1) (nest openByte closeByte (s.progByte i) d) (by omega) (by omega) (by omega)
        rw [show ((i : Int) + 1) = ((i + 1 : Nat) : Int) by push_cast; rfl]
        simpa only [← fwdStop_step hd hz] using this

/-- The stop of a scan that begins just after a `[` is the bracket that balances it (R113). -/
theorem fwdStop_iff_match (p m : Nat) : FwdStop s (p + 1) 1 m ↔ FwdMatch s p m := by
  constructor
  · intro h
    have e : m - (p + 1) = m - p - 1 := by omega
    have hb := h.last; have hf := h.before
    rw [e] at hb hf
    exact ⟨h.from_le, h.inside, h.closes, by omega, fun n hn => by have := hf n hn; omega⟩
  · intro h
    have e : m - (p + 1) = m - p - 1 := by omega
    refine ⟨h.after, h.inside, h.closes, ?_, fun n hn => ?_⟩
    · rw [e]; have := h.balanced; omega
    · rw [e] at hn; have := h.prefixes n hn; omega

/-- A forward scan has at most one stop. -/
theorem FwdStop.not_lt {i d a b : Nat} (ha : FwdStop s i d a) (hb : FwdStop s i d b) : ¬ a < b := by
  intro h
  have hi := ha.from_le
  have hx := hb.before (a - i + 1) (by omega)
  rw [countBytes_succ_right, countBytes_succ_right, show i + (a - i) = a by omega, ha.closes, if_pos rfl,
    if_neg (Ne.symm openByte_ne_closeByte)] at hx
  have := ha.last
  omega

/-- The bracket that balances a `[` is unique. -/
theorem FwdMatch.unique {p a b : Nat} (ha : FwdMatch s p a) (hb : FwdMatch s p b) : a = b := by
  have ha := (fwdStop_iff_match p a).2 ha
  have hb := (fwdStop_iff_match p b).2 hb
  have := ha.not_lt hb
  have := hb.not_lt ha
  omega

/-- What `ScanFwd(p)` answers (R105). -/
theorem scanFwd_cases (p : Nat) (hp : p < s.plen) :
    (∃ m : Nat, FwdMatch s p m ∧ scanFwd s p = .found m) ∨
    ((∀ m, ¬ FwdMatch s p m) ∧ ∃ d', scanFwd s p = .offEnd s.plen d') := by
  have := scanLoop_fwd (s := s) (s.plen + 1) (p + 1) 1 le_rfl hp (by omega)
  simpa only [fwdStop_iff_match, scanFwd, Nat.cast_add, Nat.cast_one] using this

/-- From `PLEN` or beyond, `ScanFwd` finds nothing at once. -/
theorem scanFwd_beyond (p : Nat) (hp : s.plen ≤ p) : scanFwd s p = .offEnd ((p : Int) + 1) 1 := by
  simp only [scanFwd, scanLoop, scanFwdStep]
  rw [if_pos (by omega)]

/-! ### Backward -/

/-- What a backward scan standing just below `k` with counter `d` stops at: the last `[` that brings the counter to 0. -/
structure BwdStop (s : State) (k d m : Nat) : Prop where
  lt : m < k
  opens : s.progByte m = openByte
  last : d + countBytes s closeByte (m + 1) (k - m - 1) = 1 + countBytes s openByte (m + 1) (k - m - 1)
  before : ∀ n ≤ k - m - 1, countBytes s openByte (k - n) n < d + countBytes s closeByte (k - n) n

theorem bwdStop_step {k d m : Nat} (hd : 1 ≤ d) (hne : nest closeByte openByte (s.progByte k) d ≠ 0) :
    BwdStop s (k + 1) d m ↔ BwdStop s k (nest closeByte openByte (s.progByte k) d) m := by
  have hoc := openByte_ne_closeByte
  have eqn : ∀ i n, i + n = k → d + countBytes s closeByte i (n + 1) + countBytes s openByte i n =
      nest closeByte openByte (s.progByte k) d + countBytes s closeByte i n + countBytes s openByte i (n + 1) := by
    intro i n hk
    rw [countBytes_succ_right, countBytes_succ_right, hk]
    unfold nest
    by_cases hc : s.progByte k = closeByte
    · have ho : s.progByte k ≠ openByte := hc ▸ Ne.symm hoc
      rw [if_pos hc, if_pos hc, if_neg ho]; omega
    · by_cases ho : s.progByte k = openByte
      · rw [if_neg hc, if_neg hc, if_pos ho, if_pos ho]; omega
      · rw [if_neg hc, if_neg hc, if_neg ho, if_neg ho]; omega
  constructor
  · intro h
    have hlt : m < k := by
      rcases Nat.lt_or_eq_of_le (Nat.le_of_lt_succ h.lt) with hlt | rfl
      · exact hlt
      · exfalso
        have hl := h.last
        simp [countBytes] at hl
        apply hne
        rw [nest, h.opens, if_neg hoc, if_pos rfl, hl]
    have e : k + 1 - m - 1 = (k - m - 1) + 1 := by omega
    refine ⟨hlt, h.opens, ?_, fun n hn => ?_⟩
    · have h1 := h.last
      rw [e] at h1
      have := eqn (m + 1) (k - m - 1) (by omega)
      omega
    · have h1 := h.before (n + 1) (by omega)
      rw [show k + 1 - (n + 1) = k - n by omega] at h1
      have := eqn (k - n) n (by omega)
      omega
  · intro h
    have e : k + 1 - m - 1 = (k - m - 1) + 1 := by have := h.lt; omega
    refine ⟨by have := h.lt; omega, h.opens, ?_, fun n hn => ?_⟩
    · have h1 := h.last
      have := eqn (m + 1) (k - m - 1) (by have := h.lt; omega)
      rw [e]; omega
    · match n with
      | 0 => simp only [countBytes]; omega
      | n + 1 =>
        have h1 := h.before n (by omega)
        rw [show k + 1 - (n + 1) = k - n by omega]
        have := eqn (k - n) n (by have := h.lt; omega)
        omega

/-- The backward scan finds exactly what it stops at; with none, its index leaves the program at -1. -/
theorem scanLoop_bwd (n k d : Nat) (hd : 1 ≤ d) (hn : k < n) :
    (∃ m : Nat, BwdStop s k d m ∧ scanLoop (scanBwdStep s) n ((k : Int) - 1) d = .found m) ∨
    ((∀ m, ¬ BwdStop s k d m) ∧ ∃ d', scanLoop (scanBwdStep s) n ((k : Int) - 1) d = .offEnd (-1) d') := by
  induction n generalizing k d with
  | zero => omega
  | succ n ih =>
    match k with
    | 0 => exact .inr ⟨fun m h => by have := h.lt; omega, d, rfl⟩
    | k + 1 =>
      rw [show (((k + 1 : Nat) : Int) - 1) = (k : Int) by push_cast; omega]
      simp only [scanLoop, scanBwdStep, Int.toNat_natCast]
      rw [if_neg (by omega)]
      by_cases hz : nest closeByte openByte (s.progByte k) d = 0
      · simp only [hz, if_true]
        refine .inl ⟨k, ?_, rfl⟩
        unfold nest at hz
        split at hz
        · omega
        · split at hz
          · refine ⟨by omega, ‹_›, ?_, fun n hn => ?_⟩
            · rw [show k + 1 - k - 1 = 0 by omega]; simp [countBytes]; omega
            · have : n = 0 := by omega
              subst this; simp [countBytes]; omega
          · omega
      · simp only [hz, if_false]
        have := ih k (nest closeByte openByte (s.progByte k) d) (by omega) (by omega)
        simpa only [← bwdStop_step hd hz] using this

/-- The stop of a scan that begins just before a `]` is the bracket that balances it (R113). -/
theorem bwdStop_iff_match (p m : Nat) : BwdStop s p 1 m ↔ BwdMatch s p m := by
  constructor
  · intro h
    exact ⟨h.lt, h.opens, by have := h.last; omega, fun n hn => by have := h.before n hn; omega⟩
  · intro h
    exact ⟨h.before, h.opens, by have := h.balanced; omega, fun n hn => by have := h.suffixes n hn; omega⟩

/-- A backward scan has at most one stop. -/
theorem BwdStop.not_lt {k d a b : Nat} (ha : BwdStop s k d a) (hb : BwdStop s k d b) : ¬ a < b := by
  intro h
  have hk := hb.lt
  have hx := ha.before (k - b - 1 + 1) (by omega)
  rw [show k - (k - b - 1 + 1) = b by omega, countBytes_succ, countBytes_succ, hb.opens, if_pos rfl,
    if_neg openByte_ne_closeByte] at hx
  have := hb.last
  omega

/-- The bracket that balances a `]` is unique. -/
theorem BwdMatch.unique {p a b : Nat} (ha : BwdMatch s p a) (hb : BwdMatch s p b) : a = b := by
  have ha := (bwdStop_iff_match p a).2 ha
  have hb := (bwdStop_iff_match p b).2 hb
  have := ha.not_lt hb
  have := hb.not_lt ha
  omega

/-- What `ScanBwd(p)` answers (R106). -/
theorem scanBwd_cases (p : Nat) :
    (∃ m : Nat, BwdMatch s p m ∧ scanBwd s p = .found m) ∨
    ((∀ m, ¬ BwdMatch s p m) ∧ ∃ d', scanBwd s p = .offEnd (-1) d') := by
  have := scanLoop_bwd (s := s) (p + 1) p 1 le_rfl (by omega)
  simpa only [bwdStop_iff_match, scanBwd] using this

end Sys2Proof.Machine
end

