-- ==== Sys2Proof/Laws/Cycle.lean ====
section
/-!
SUPPORT. The cycle-level machine: everything a cycle can do, what a row of cycles is, and that an instruction and a scan depend on the
architectural state and the input signals alone, not on the transient registers.
-/
namespace Sys2Proof.Machine

/-! ### Cycles -/

theorem cycle_of_rst {s : State} (h : s.now.rst = true) : cycle s = .next s.resetBlock.forget.tickOver := by
  simp only [cycle, if_pos h, mapNext]

theorem cycle_of_phase {s u : State} (h : s.now.rst = false) (e : cyclePhase s = .next u) :
    cycle s = .next u.tickOver := by
  simp [cycle, h, e, mapNext]

theorem cycles_succ {n : Nat} {s t : State} (h : cycle s = .next t) : cycles (n + 1) s = cycles n t := by
  simp only [cycles, h]

theorem cycles_one {s t : State} (h : cycle s = .next t) : cycles 1 s = .next t := cycles_succ h

/-! ### One cycle -/

/-- The instructions that commit, and the phases they commit in. -/
def CommitsIn (s : State) : Instr → Prop
  | .out => s.phase = .waitOut ∧ s.now.outReady = true
  | .inp => s.phase = .waitIn ∧ s.answer ≠ none
  | .jz => False
  | .jnz => False
  | .dpInc => s.phase = .exec
  | .dpDec => s.phase = .exec
  | .cInc => s.phase = .exec
  | .cDec => s.phase = .exec
  | .nop _ => s.phase = .exec

/-- The ways a cycle can lead from `s` to a state, the passing of the host's inputs apart (R85, R86, R142). -/
inductive CycleEffect (s : State) : State → Prop where
  | reset (h : s.now.rst = true) : CycleEffect s s.resetBlock.forget
  | halt (h : s.now.rst = false) (p : s.phase = .halt) : CycleEffect s (cycleHalt s)
  | clear (h : s.now.rst = false) (p : s.phase = .clear) (c : s.clrA.toNat + 1 < Config.tapeLen) :
      CycleEffect s s.clearOne
  | clearLast (h : s.now.rst = false) (p : s.phase = .clear) (c : s.clrA.toNat + 1 = Config.tapeLen) :
      CycleEffect s s.clearOne.enterRun
  | abort (h : s.now.rst = false) (p : s.phase ≠ .halt) (q : s.phase ≠ .clear) (a : s.now.abort = true) :
      CycleEffect s (s.haltRun .aborted)
  | fetch (h : s.now.rst = false) (a : s.now.abort = false) (p : s.phase = .fetch) : CycleEffect s (cycleFetch s)
  | toWaitOut (h : s.now.rst = false) (a : s.now.abort = false) (p : s.phase = .exec) :
      CycleEffect s (s.toPhase .waitOut)
  | toWaitIn (h : s.now.rst = false) (a : s.now.abort = false) (p : s.phase = .exec) :
      CycleEffect s (s.toPhase .waitIn)
  | jz (h : s.now.rst = false) (a : s.now.abort = false) (p : s.phase = .exec) (d : s.dp.toNat < Config.tapeLen) :
      CycleEffect s (cycleJump s (isZero s.current) .scanF ((s.pc : Int) + 1))
  | jnz (h : s.now.rst = false) (a : s.now.abort = false) (p : s.phase = .exec) (d : s.dp.toNat < Config.tapeLen) :
      CycleEffect s (cycleJump s (!isZero s.current) .scanB ((s.pc : Int) - 1))
  | commit {i : Instr} {t : State} (h : s.now.rst = false) (a : s.now.abort = false) (c : CommitsIn s i)
      (x : Machine.exec i s = .next t) : CycleEffect s t.rephase
  | scanF (h : s.now.rst = false) (a : s.now.abort = false) (p : s.phase = .scanF) :
      CycleEffect s (cycleScan s (scanFwdStep s s.scanJ s.depth))
  | scanB (h : s.now.rst = false) (a : s.now.abort = false) (p : s.phase = .scanB) :
      CycleEffect s (cycleScan s (scanBwdStep s s.scanJ s.depth))
  | waitOut (h : s.now.rst = false) (a : s.now.abort = false) (p : s.phase = .waitOut)
      (r : s.now.outReady = false) : CycleEffect s s
  | waitIn (h : s.now.rst = false) (a : s.now.abort = false) (p : s.phase = .waitIn) (r : s.answer = none) :
      CycleEffect s s

theorem commit_eq_next {o : Host.Outcome State Fault Refusal} {t : State} (h : commit o = .next t) :
    ∃ u, o = .next u ∧ t = u.rephase := by
  obtain ⟨u, hu, rfl⟩ := mapNext_eq_next.1 h
  exact ⟨u, hu, rfl⟩

/-- A phase that samples `abort`: the abort, or what the phase does without it (R86). -/
theorem cycleRun_eq_next {s t : State} {k : Host.Outcome State Fault Refusal} (h : cycleRun s k = .next t) :
    (s.now.abort = true ∧ t = s.haltRun .aborted) ∨ (s.now.abort = false ∧ k = .next t) := by
  unfold cycleRun at h
  split at h
  · cases h; exact .inl ⟨‹_›, rfl⟩
  · exact .inr ⟨by simpa using ‹¬ s.now.abort = true›, h⟩

/-- A cycle in EXEC without `rst` and `abort` does so in one of these ways. -/
theorem cycleExec_effect {s t : State} (hr : s.now.rst = false) (ha : s.now.abort = false) (hp : s.phase = .exec)
    (h : cycleExec s = .next t) : CycleEffect s t := by
  unfold cycleExec at h
  split at h
  · obtain ⟨u, hu, rfl⟩ := commit_eq_next h; exact .commit (i := .dpInc) hr ha hp hu
  · obtain ⟨u, hu, rfl⟩ := commit_eq_next h; exact .commit (i := .dpDec) hr ha hp hu
  · obtain ⟨u, hu, rfl⟩ := commit_eq_next h; exact .commit (i := .cInc) hr ha hp hu
  · obtain ⟨u, hu, rfl⟩ := commit_eq_next h; exact .commit (i := .cDec) hr ha hp hu
  · cases h; exact .toWaitOut hr ha hp
  · cases h; exact .toWaitIn hr ha hp
  · obtain ⟨hd, h⟩ := State.atCell_eq_next h; cases h; exact .jz hr ha hp hd
  · obtain ⟨hd, h⟩ := State.atCell_eq_next h; cases h; exact .jnz hr ha hp hd
  · obtain ⟨u, hu, rfl⟩ := commit_eq_next h; exact .commit (i := .nop _) hr ha hp hu

/-- A cycle that answers a next state does so in one of these ways. -/
theorem cycle_effect {s t : State} (h : cycle s = .next t) : ∃ u, CycleEffect s u ∧ t = u.tickOver := by
  obtain ⟨u, hu, rfl⟩ := mapNext_eq_next.1 h
  refine ⟨u, ?_, rfl⟩
  split at hu
  · cases hu; exact .reset ‹_›
  have hr : s.now.rst = false := by simpa using ‹¬ s.now.rst = true›
  have aborts : s.phase ≠ .halt → s.phase ≠ .clear → ∀ k, cycleRun s k = .next u →
      (s.now.abort = false → k = .next u → CycleEffect s u) → CycleEffect s u := by
    intro p q k hk hn
    rcases cycleRun_eq_next hk with ⟨a, rfl⟩ | ⟨a, hk⟩
    · exact .abort hr p q a
    · exact hn a hk
  unfold cyclePhase at hu
  cases hp : s.phase <;> simp only [hp] at hu aborts
  case halt => cases hu; exact .halt hr hp
  case clear =>
    unfold cycleClear at hu
    split at hu
    · split at hu <;> cases hu
      · exact .clearLast hr hp ‹_›
      · exact .clear hr hp (by omega)
    · cases hu
  case fetch => exact aborts (by decide) (by decide) _ hu fun a h => by cases h; exact .fetch hr a hp
  case exec => exact aborts (by decide) (by decide) _ hu fun a h => cycleExec_effect hr a hp h
  case scanF => exact aborts (by decide) (by decide) _ hu fun a h => by cases h; exact .scanF hr a hp
  case scanB => exact aborts (by decide) (by decide) _ hu fun a h => by cases h; exact .scanB hr a hp
  case waitOut =>
    refine aborts (by decide) (by decide) _ hu fun a h => ?_
    unfold cycleWaitOut at h
    split at h
    · obtain ⟨v, hv, rfl⟩ := commit_eq_next h; exact .commit (i := .out) hr a ⟨hp, ‹_›⟩ hv
    · cases h; exact .waitOut hr a hp (by simpa using ‹¬ s.now.outReady = true›)
  case waitIn =>
    refine aborts (by decide) (by decide) _ hu fun a h => ?_
    unfold cycleWaitIn at h
    split at h
    · obtain ⟨v, hv, rfl⟩ := commit_eq_next h
      exact .commit (i := .inp) hr a ⟨hp, Option.isSome_iff_ne_none.1 ‹_›⟩ hv
    · cases h; exact .waitIn hr a hp (by simpa using ‹¬ s.answer.isSome = true›)

/-! ### The host's inputs, from one cycle to the next -/

theorem State.inputAt_tickOver (s : State) (k : Nat) : s.tickOver.inputAt k = s.inputAt (k + 1) := by
  show (s.script.tail[k]?).getD (Config.hostInput (s.tick + 1 + k)) = _
  rw [List.getElem?_tail, show s.tick + 1 + k = s.tick + (k + 1) by omega]
  rfl

theorem State.inputAt_congr {s t : State} (h : t.script = s.script) (g : t.tick = s.tick) (k : Nat) :
    t.inputAt k = s.inputAt k := by
  unfold State.inputAt; rw [h, g]

/-! ### The same architectural state -/

theorem SameArch.refl (s : State) : SameArch s s := ⟨rfl, rfl, rfl, rfl, rfl, rfl, rfl, rfl⟩

theorem SameArch.trans {a b c : State} (h : SameArch a b) (g : SameArch b c) : SameArch a c :=
  ⟨g.tape.trans h.tape, g.dp.trans h.dp, g.pc.trans h.pc, g.prog.trans h.prog, g.plen.trans h.plen,
    g.state.trans h.state, g.outBytes.trans h.outBytes, g.inAnswers.trans h.inAnswers⟩

theorem SameArch.endScan {s t : State} (h : SameArch s t) (r : ScanEnd) : SameArch (s.endScan r) (t.endScan r) := by
  cases r with
  | offEnd j d =>
    exact ⟨h.tape, h.dp, congrArg (· + 1) h.pc, h.prog, h.plen, rfl, h.outBytes, h.inAnswers⟩
  | found j => exact ⟨h.tape, h.dp, rfl, h.prog, h.plen, h.state, h.outBytes, h.inAnswers⟩

theorem SameArch.scanFwd {s t : State} (h : SameArch s t) (p : Nat) : scanFwd t p = scanFwd s p := by
  unfold Machine.scanFwd scanFwdStep State.progByte; rw [h.prog, h.plen]

theorem SameArch.scanBwd {s t : State} (h : SameArch s t) (p : Nat) : scanBwd t p = scanBwd s p := by
  unfold Machine.scanBwd scanBwdStep State.progByte; rw [h.prog]

/-- Under the same input signals an instruction has the same architectural effect, whatever the transient registers
hold. -/
theorem SameArch.exec {i : Instr} {a b u v : State} (h : SameArch a b) (hn : b.now = a.now)
    (ha : exec i a = .next u) (hb : exec i b = .next v) : SameArch u v := by
  have hans : b.answer = a.answer := by unfold State.answer; rw [hn]
  have hcur : b.current = a.current := by unfold State.current State.cell; rw [h.dp, h.tape]
  obtain ⟨h1, h2, h3, h4, h5, h6, h7, h8⟩ := id h
  have ea := exec_effect ha
  have eb := exec_effect hb
  cases ea <;> cases eb <;> first
    | (exfalso; simp_all; done)
    | (exfalso; rw [h2] at *; omega)
    | (constructor <;> simp_all [State.setCurrent, State.setCell, State.raiseFault, State.retire, State.haltRun]; done)
    | skip
  · rw [h.scanFwd, h3]; exact h.endScan _
  · rw [h.scanBwd, h3]; exact h.endScan _

/-! ### The matcher, one byte a cycle -/

/-- From any point of a forward scan the matcher comes to the end the scan has (R87). -/
theorem cycles_scanF (n : Nat) (s : State) (hp : s.phase = .scanF) (hr : s.state = .running)
    (hi : ∀ k < n, (s.inputAt k).rst = false ∧ (s.inputAt k).abort = false)
    (hj : s.scanJ ≤ s.plen) (hn : (s.plen : Int) < n + s.scanJ) :
    ∃ (m : Nat) (t : State), 1 ≤ m ∧ m ≤ n ∧ cycles m s = .next t ∧
      SameArch (s.endScan (scanLoop (scanFwdStep s) n s.scanJ s.depth)) t ∧ t.phase = boundaryPhase t.state := by
  induction n generalizing s with
  | zero => omega
  | succ n ih =>
    have ph : ∀ r, scanFwdStep s s.scanJ s.depth = r → cycle s = .next (cycleScan s r).tickOver := fun r e =>
      cycle_of_phase (hi 0 (by omega)).1 (by
        simp only [cyclePhase, hp, cycleRun, e]
        exact if_neg (by rw [show s.now.abort = false from (hi 0 (by omega)).2]; decide))
    simp only [scanLoop]
    cases e : scanFwdStep s s.scanJ s.depth with
    | offEnd => exact ⟨1, _, by omega, by omega, cycles_one (ph _ e), ⟨rfl, rfl, rfl, rfl, rfl, rfl, rfl, rfl⟩, rfl⟩
    | found => exact ⟨1, _, by omega, by omega, cycles_one (ph _ e), ⟨rfl, rfl, rfl, rfl, rfl, rfl, rfl, rfl⟩, rfl⟩
    | more j d =>
      have hm : j = s.scanJ + 1 ∧ s.scanJ < s.plen := by
        simp only [scanFwdStep] at e
        split at e
        · cases e
        · split at e <;> cases e
          omega
      obtain ⟨m, t, h1, h2, h3, h4, h5⟩ := ih (s.scanOn j d).tickOver hp hr
        (fun k hk => by rw [State.inputAt_tickOver]; exact hi (k + 1) (by omega))
        (by show j ≤ (s.plen : Int); omega) (by show (s.plen : Int) < n + j; omega)
      have sa : SameArch s (s.scanOn j d).tickOver := ⟨rfl, rfl, rfl, rfl, rfl, rfl, rfl, rfl⟩
      exact ⟨m + 1, t, by omega, by omega, (cycles_succ (ph _ e)).trans h3, (sa.endScan _).trans h4, h5⟩

/-- From any point of a backward scan the matcher comes to the end the scan has (R87). -/
theorem cycles_scanB (n : Nat) (s : State) (hp : s.phase = .scanB) (hr : s.state = .running)
    (hi : ∀ k < n, (s.inputAt k).rst = false ∧ (s.inputAt k).abort = false)
    (hj : -1 ≤ s.scanJ) (hn : s.scanJ + 1 < n) :
    ∃ (m : Nat) (t : State), 1 ≤ m ∧ m ≤ n ∧ cycles m s = .next t ∧
      SameArch (s.endScan (scanLoop (scanBwdStep s) n s.scanJ s.depth)) t ∧ t.phase = boundaryPhase t.state := by
  induction n generalizing s with
  | zero => omega
  | succ n ih =>
    have ph : ∀ r, scanBwdStep s s.scanJ s.depth = r → cycle s = .next (cycleScan s r).tickOver := fun r e =>
      cycle_of_phase (hi 0 (by omega)).1 (by
        simp only [cyclePhase, hp, cycleRun, e]
        exact if_neg (by rw [show s.now.abort = false from (hi 0 (by omega)).2]; decide))
    simp only [scanLoop]
    cases e : scanBwdStep s s.scanJ s.depth with
    | offEnd => exact ⟨1, _, by omega, by omega, cycles_one (ph _ e), ⟨rfl, rfl, rfl, rfl, rfl, rfl, rfl, rfl⟩, rfl⟩
    | found => exact ⟨1, _, by omega, by omega, cycles_one (ph _ e), ⟨rfl, rfl, rfl, rfl, rfl, rfl, rfl, rfl⟩, rfl⟩
    | more j d =>
      have hm : j = s.scanJ - 1 ∧ 0 ≤ s.scanJ := by
        simp only [scanBwdStep] at e
        split at e
        · cases e
        · split at e <;> cases e
          omega
      obtain ⟨m, t, h1, h2, h3, h4, h5⟩ := ih (s.scanOn j d).tickOver hp hr
        (fun k hk => by rw [State.inputAt_tickOver]; exact hi (k + 1) (by omega))
        (by show -1 ≤ j; omega) (by show j + 1 < n; omega)
      have sa : SameArch s (s.scanOn j d).tickOver := ⟨rfl, rfl, rfl, rfl, rfl, rfl, rfl, rfl⟩
      exact ⟨m + 1, t, by omega, by omega, (cycles_succ (ph _ e)).trans h3, (sa.endScan _).trans h4, h5⟩

end Sys2Proof.Machine
end

