-- ==== Sys2Proof/Laws/Inputs.lean ====
section
/-!
SUPPORT. What an instruction and a step of a run look at outside the architectural state: of the host, only whether the
sink takes a byte and what the input channel answers, beside `rst`, `abort` and the race; of the program store, only bytes
below `PLEN`.
-/
namespace Sys2Proof.Machine

variable {s : State}

/-- The host's part in an instruction is `out_ready` and the channel's answer, and nothing else. -/
theorem exec_withScript (i : Instr) (l : List HostInput)
    (ho : (s.withScript l).now.outReady = s.now.outReady) (ha : (s.withScript l).answer = s.answer) :
    exec i (s.withScript l) = mapNext (fun t => t.withScript l) (exec i s) := by
  cases i with
  | dpInc => simp only [exec, execDpInc, mapNext_ite]; rfl
  | dpDec => simp only [exec, execDpDec, mapNext_ite]; rfl
  | cInc => simp only [exec, execCInc, State.onCell, State.atCell, mapNext_ite]; rfl
  | cDec => simp only [exec, execCDec, State.onCell, State.atCell, mapNext_ite]; rfl
  | out => simp only [exec, execOut, ho, State.onCell, State.atCell, mapNext_ite]; rfl
  | inp =>
    simp only [exec, execIn, ha]
    split
    · rfl
    · rfl
    · simp only [State.atCell, mapNext_ite]; rfl
  | jz =>
    simp only [exec, execJz, State.onCell, State.atCell, mapNext_ite]
    rw [show scanFwd (s.withScript l) (s.withScript l).pc = scanFwd s s.pc from rfl]
    cases scanFwd s s.pc <;> rfl
  | jnz =>
    simp only [exec, execJnz, State.onCell, State.atCell, mapNext_ite]
    rw [show scanBwd (s.withScript l) (s.withScript l).pc = scanBwd s s.pc from rfl]
    cases scanBwd s s.pc <;> rfl
  | nop b => rfl

/-- Whether the instruction at `PC` waits depends on the host by the same two signals. -/
theorem State.waits_withScript (l : List HostInput)
    (ho : (s.withScript l).now.outReady = s.now.outReady) (ha : (s.withScript l).answer = s.answer) :
    (s.withScript l).waits = s.waits := by
  unfold State.waits
  rw [ho, ha]
  rfl

/-- Under another host that drives the same `abort`, race outcome, `out_ready` and answer, a step of the run has the same
effect. -/
theorem runStep_withScript (l : List HostInput)
    (hb : (s.withScript l).abortTaken = s.abortTaken)
    (ho : (s.withScript l).now.outReady = s.now.outReady) (ha : (s.withScript l).answer = s.answer) :
    runStep (s.withScript l) = mapNext (fun t => t.withScript l) (runStep s) := by
  simp only [runStep, mapNext_ite, hb]
  rw [show (s.withScript l).fetched = s.fetched from rfl,
    show (s.withScript l).latchIr = s.latchIr.withScript l from rfl, exec_withScript (s := s.latchIr) _ l ho ha]
  rfl

/-- `m` holds the same program as `s`: the same bytes below `PLEN`. -/
def SameProgram (s : State) (m : Memory) : Prop :=
  ∀ i, i < s.plen → (m.lookup i).getD (Config.unwrittenProg i) = s.progByte i

/-- The forward scan reads no program byte at `PLEN` or above (R27, R48). -/
theorem scanFwd_withProg {m : Memory} (h : SameProgram s m) (p : Nat) : scanFwd (s.withProg m) p = scanFwd s p := by
  refine scanLoop_congr (P := fun j => 0 ≤ j) (fun j d hj => ?_) (fun j d j' d' hj hg => ?_) _ _ _ (by omega)
  · unfold scanFwdStep
    by_cases hp : (s.plen : Int) ≤ j
    · rw [if_pos hp, if_pos (show ((s.withProg m).plen : Int) ≤ j from hp)]
    · rw [if_neg hp, if_neg (show ¬ ((s.withProg m).plen : Int) ≤ j from hp),
        show (s.withProg m).progByte j.toNat = s.progByte j.toNat from h _ (by omega)]
  · simp only [scanFwdStep] at hg
    split at hg
    · cases hg
    · split at hg <;> cases hg
      omega

/-- The backward scan from inside the program reads no program byte at `PLEN` or above (R27, R48). -/
theorem scanBwd_withProg {m : Memory} (h : SameProgram s m) (p : Nat) (hp : p < s.plen) :
    scanBwd (s.withProg m) p = scanBwd s p := by
  refine scanLoop_congr (P := fun j => j < s.plen) (fun j d hj => ?_) (fun j d j' d' hj hg => ?_) _ _ _ (by omega)
  · unfold scanBwdStep
    by_cases hj0 : j < 0
    · rw [if_pos hj0, if_pos hj0]
    · rw [if_neg hj0, if_neg hj0, show (s.withProg m).progByte j.toNat = s.progByte j.toNat from h _ (by omega)]
  · simp only [scanBwdStep] at hg
    split at hg
    · cases hg
    · split at hg <;> cases hg
      omega

/-- An instruction inside the program reads no program byte at `PLEN` or above (R27). -/
theorem exec_withProg (i : Instr) {m : Memory} (h : SameProgram s m) (hp : s.pc < s.plen) :
    exec i (s.withProg m) = mapNext (fun t => t.withProg m) (exec i s) := by
  cases i with
  | dpInc => simp only [exec, execDpInc, mapNext_ite]; rfl
  | dpDec => simp only [exec, execDpDec, mapNext_ite]; rfl
  | cInc => simp only [exec, execCInc, State.onCell, State.atCell, mapNext_ite]; rfl
  | cDec => simp only [exec, execCDec, State.onCell, State.atCell, mapNext_ite]; rfl
  | out => simp only [exec, execOut, State.onCell, State.atCell, mapNext_ite]; rfl
  | inp =>
    simp only [exec, execIn, State.withProg_answer]
    split
    · rfl
    · rfl
    · simp only [State.atCell, mapNext_ite]; rfl
  | jz =>
    simp only [exec, execJz, State.onCell, State.atCell, mapNext_ite]
    rw [State.withProg_pc, scanFwd_withProg h]
    cases scanFwd s s.pc <;> rfl
  | jnz =>
    simp only [exec, execJnz, State.onCell, State.atCell, mapNext_ite]
    rw [State.withProg_pc, scanBwd_withProg h _ hp]
    cases scanBwd s s.pc <;> rfl
  | nop b => rfl

end Sys2Proof.Machine
end

