-- ==== Sys2Proof/Laws/Keeps.lean ====
section
/-!
SUPPORT. The memories' canonical form and ranges (`StoresOk`) under every operation that writes a store or a cursor, and
that the memories of the state after reset have it.
-/
namespace Sys2Proof.Machine

/-- Where the two stores, `DP`, `PLEN` and `PC` are the same, `StoresOk` is the same. -/
theorem StoresOk.congr {s t : State} (h : StoresOk s) (htape : t.tape = s.tape) (hprog : t.prog = s.prog)
    (hdp : t.dp = s.dp) (hplen : t.plen = s.plen) (hpc : t.pc ≤ Config.progMax) : StoresOk t where
  tapeWf := htape ▸ h.tapeWf
  tapeIn := htape ▸ h.tapeIn
  progWf := hprog ▸ h.progWf
  progIn := hprog ▸ h.progIn
  dpIn := hdp ▸ h.dpIn
  plenIn := hplen ▸ h.plenIn
  pcIn := hpc

/-- A tape write inside the tape keeps the stores in order (R46). -/
theorem StoresOk.setCell {s : State} (h : StoresOk s) {a : Nat} (ha : a < Config.tapeLen) (v : Byte) :
    StoresOk (s.setCell a v) where
  tapeWf := Memory.wf_store a v h.tapeWf
  tapeIn c hc := by
    rcases Memory.mem_store hc with ⟨rfl, _⟩ | hc
    · exact ha
    · exact h.tapeIn c hc
  progWf := h.progWf
  progIn := h.progIn
  dpIn := h.dpIn
  plenIn := h.plenIn
  pcIn := h.pcIn

/-- A write of the current cell keeps the stores in order. -/
theorem StoresOk.setCurrent {s : State} (h : StoresOk s) (v : Byte) : StoresOk (s.setCurrent v) :=
  h.setCell h.dpIn v

/-- A program write below `PROG_MAX` keeps the stores in order (R49). -/
theorem StoresOk.setProg {s : State} (h : StoresOk s) {i : Nat} (hi : i < Config.progMax) (v : Byte) :
    StoresOk (s.setProg i v) where
  tapeWf := h.tapeWf
  tapeIn := h.tapeIn
  progWf := Memory.wf_store i v h.progWf
  progIn c hc := by
    rcases Memory.mem_store (bl := none) hc with ⟨rfl, _⟩ | hc
    · exact hi
    · exact h.progIn c hc
  dpIn := h.dpIn
  plenIn := h.plenIn
  pcIn := h.pcIn

/-- The load port keeps the stores in order, whatever the host drives (R49). -/
theorem StoresOk.load {s : State} (h : StoresOk s) : StoresOk s.loadProg.loadPlen := by
  have h1 : StoresOk s.loadProg := by
    unfold State.loadProg
    split
    · exact h.setProg (by tauto) _
    · exact h
  unfold State.loadPlen
  split
  · rename_i hp
    exact { h1 with plenIn := hp.2 }
  · exact h1

/-- Cell 0 exists. -/
theorem zero_in_tape : (0 : TapeIndex).toNat < Config.tapeLen := by decide

/-- The start of a run leaves an empty tape and both cursors at 0 (R145). -/
theorem StoresOk.startRun {s : State} (h : StoresOk s) : StoresOk s.startRun where
  tapeWf := Memory.wf_nil _
  tapeIn c hc := by cases hc
  progWf := h.progWf
  progIn := h.progIn
  dpIn := zero_in_tape
  plenIn := h.plenIn
  pcIn := Nat.zero_le _

/-- Reset leaves the stores in order (R142). -/
theorem StoresOk.resetBlock {s : State} (h : StoresOk s) : StoresOk s.resetBlock where
  tapeWf := h.tapeWf
  tapeIn := h.tapeIn
  progWf := h.progWf
  progIn := h.progIn
  dpIn := zero_in_tape
  plenIn := Nat.zero_le _
  pcIn := Nat.zero_le _

/-- The memories of the state after reset are in order. -/
theorem reset_storesOk : StoresOk State.reset where
  tapeWf := Memory.wf_nil _
  tapeIn c hc := by cases hc
  progWf := Memory.wf_nil _
  progIn c hc := by cases hc
  dpIn := by decide
  plenIn := Nat.zero_le _
  pcIn := Nat.zero_le _

/-! ### The registers' widths -/

/-- `PC_W` bits hold every number up to `PROG_MAX` (R15). -/
theorem Config.progMax_lt_width : Config.progMax < 2 ^ Config.pcWidth :=
  calc Config.progMax < 2 ^ Nat.clog 2 (Config.progMax + 1) := Nat.le_pow_clog (by decide) _
    _ ≤ 2 ^ Config.pcWidth := Nat.pow_le_pow_right (by decide) (Nat.le_max_right _ _)

/-- Registers in the ranges of R26, R28, R108 and R109 fit in their widths. -/
theorem WidthsOk.of_ranges {s : State} (h : StoresOk s) (hd : s.depth ≤ Config.progMax) (hl : -1 ≤ s.scanJ)
    (hj : s.scanJ ≤ Config.progMax) : WidthsOk s := by
  have w := Config.progMax_lt_width
  have w' : (Config.progMax : Int) < 2 ^ Config.pcWidth := by exact_mod_cast w
  have := h.pcIn
  have := h.plenIn
  exact ⟨by omega, by omega, by omega, by omega, by omega⟩

/-- The cursors in range and the transient registers as they were keep the widths. -/
theorem WidthsOk.congr {s t : State} (h : WidthsOk s) (k : StoresOk t) (hd : t.depth = s.depth)
    (hj : t.scanJ = s.scanJ) : WidthsOk t where
  pc := Nat.lt_of_le_of_lt k.pcIn Config.progMax_lt_width
  plen := Nat.lt_of_le_of_lt k.plenIn Config.progMax_lt_width
  depth := hd ▸ h.depth
  scanJLow := hj ▸ h.scanJLow
  scanJHigh := hj ▸ h.scanJHigh

/-- Outside their live time the transient registers hold what their bits can hold (R15, R39). -/
theorem StoresOk.widthsOk_forget {s : State} (h : StoresOk s) : WidthsOk s.forget where
  pc := Nat.lt_of_le_of_lt h.pcIn Config.progMax_lt_width
  plen := Nat.lt_of_le_of_lt h.plenIn Config.progMax_lt_width
  depth := (Config.depthIdle s.tick).isLt
  scanJLow := (Config.scanJIdle s.tick).le_toInt
  scanJHigh := (Config.scanJIdle s.tick).toInt_lt

/-- The registers of the state after reset fit in their widths. -/
theorem reset_widthsOk : WidthsOk State.reset :=
  .of_ranges reset_storesOk (Nat.zero_le _) (by decide) (Int.natCast_nonneg _)

/-! ### One instruction -/

/-- An instruction of the program keeps the stores in order: it writes the current cell only, `DP` stays inside the tape and
`PC` inside the program. -/
theorem exec_keeps_storesOk {i : Instr} {s t : State} (h : StoresOk s) (hp : s.pc < s.plen) (x : exec i s = .next t) :
    StoresOk t := by
  have hpc : s.pc + 1 ≤ Config.progMax := Nat.le_trans hp h.plenIn
  have scan : ∀ r, (∀ j, r = ScanEnd.found j → (j + 1).toNat ≤ Config.progMax) → StoresOk (s.endScan r) := by
    intro r hr
    cases r with
    | offEnd j d => exact h.congr rfl rfl rfl rfl hpc
    | found j => exact h.congr rfl rfl rfl rfl (hr j rfl)
  cases exec_effect x with
  | dpIncFault => exact h.congr rfl rfl rfl rfl hpc
  | dpInc hd =>
    have : (s.dp + 1).toNat < Config.tapeLen := by
      have e : Config.tapeLen = 30000 := rfl
      rw [BitVec.toNat_add, show (1 : TapeIndex).toNat = 1 from rfl]
      omega
    exact { h with dpIn := this, pcIn := hpc }
  | dpDecFault => exact h.congr rfl rfl rfl rfl hpc
  | dpDec hd =>
    have : (s.dp - 1).toNat < Config.tapeLen := by
      have e : Config.tapeLen = 30000 := rfl
      have h0 : s.dp.toNat ≠ 0 := fun e0 => hd (BitVec.eq_of_toNat_eq e0)
      have h1 := h.dpIn
      have h2 := s.dp.isLt
      rw [BitVec.toNat_sub, show (1 : TapeIndex).toNat = 1 from rfl]
      omega
    exact { h with dpIn := this, pcIn := hpc }
  | cInc hd => exact (h.setCurrent _).congr rfl rfl rfl rfl hpc
  | cDec hd => exact (h.setCurrent _).congr rfl rfl rfl rfl hpc
  | out hd r => exact h.congr rfl rfl rfl rfl hpc
  | outWait => exact h
  | inpByte v hd r => exact (h.setCurrent v).congr rfl rfl rfl rfl hpc
  | inpEof => exact h.congr rfl rfl rfl rfl hpc
  | inpWait => exact h
  | jzFall => exact h.congr rfl rfl rfl rfl hpc
  | jz hd z =>
    refine scan _ fun j hj => ?_
    rcases scanFwd_cases (s := s) s.pc hp with ⟨m, hm, e⟩ | ⟨_, d, e⟩ <;> rw [e] at hj <;> cases hj
    have := hm.inside
    have := h.plenIn
    omega
  | jnzFall => exact h.congr rfl rfl rfl rfl hpc
  | jnz hd z =>
    refine scan _ fun j hj => ?_
    rcases scanBwd_cases (s := s) s.pc with ⟨m, hm, e⟩ | ⟨_, d, e⟩ <;> rw [e] at hj <;> cases hj
    have := hm.before
    omega
  | nop b => exact h.congr rfl rfl rfl rfl hpc

end Sys2Proof.Machine
end

