-- ==== Sys2Proof/Laws/PerInstr.lean ====
section
/-!
SUPPORT. The statements made of every instruction, as syntax. `OneByte`: the encoding is one byte, and a well-formed
instruction's byte decodes to that instruction alone (R65, R66).
-/
namespace Sys2Proof.Laws.OneByte

/-- The encoding of `i` is one byte, and where `i` is well formed no other instruction has that byte. -/
def Statement (i : Instr) : Prop :=
  (encode i).length = 1 ∧ (i.wellFormed = true → (encode i).map decodeByte = [i])

theorem dpInc : Statement .dpInc := ⟨rfl, fun _ => by decide⟩
theorem dpDec : Statement .dpDec := ⟨rfl, fun _ => by decide⟩
theorem cInc : Statement .cInc := ⟨rfl, fun _ => by decide⟩
theorem cDec : Statement .cDec := ⟨rfl, fun _ => by decide⟩
theorem out : Statement .out := ⟨rfl, fun _ => by decide⟩
theorem inp : Statement .inp := ⟨rfl, fun _ => by decide⟩
theorem jz : Statement .jz := ⟨rfl, fun _ => by decide⟩
theorem jnz : Statement .jnz := ⟨rfl, fun _ => by decide⟩
theorem nop (byte : Byte) : Statement (.nop byte) := by
  revert byte
  unfold Statement
  decide +kernel

end Sys2Proof.Laws.OneByte
end

