-- ==== Sys2Proof/Tests/Slice0.lean ====
section
/-!
SUPPORT. Tests. Expected results come from spec/30_encoding.md (the words), spec/95_test_vectors.md (the vectors named in
the comments) and the rules' own examples. The theorems named `witness_…` show a state and operands that meet the
hypotheses of the statement named.
-/
namespace Sys2Proof.Tests

open Sys2Proof.Machine

/-! ### States -/

/-- A run of a program at a boundary, with these inputs to come. -/
def runAt (prog : List Byte) (pc : Nat) (dp : TapeIndex) (tape : Memory)
    (inputs : List HostInput := [freeRunInput]) : State :=
  { State.reset.placeBytes 0 prog with
    plen := prog.length, pc := pc, dp := dp, tape := tape, state := .running, phase := .fetch, tapeUnknown := none,
    script := inputs }

/-- The same in a phase of the cycle-level machine, with the byte at `pc` in `IR`. -/
def inPhase (p : Phase) (s : State) : State := { s.latchIr with phase := p }

/-- A run that has ended. -/
def ended (e : RunState) (inputs : List HostInput) : State :=
  { runAt [0x2B] 1 0 [(0, 1)] inputs with state := e, phase := .halt }

/-- The state right after reset, with these inputs to come. -/
def idle (inputs : List HostInput) : State := { State.reset with script := inputs }

/-- What one step or cycle leaves, read through `f`. -/
def left {α : Type} (f : State → α) : Host.Outcome State Fault Refusal → Option α
  | .next s => some (f s)
  | .fault _ => none
  | .refused _ => none

def busySink : HostInput := { freeRunInput with outReady := false }
def silentInput : HostInput := { freeRunInput with inEof := false }
def answers (v : Byte) : HostInput := { freeRunInput with inValid := true, inData := v, inEof := false }
def aborting : HostInput := { freeRunInput with abort := true }
def starting : HostInput := { freeRunInput with start := true }
def resetting : HostInput := { freeRunInput with rst := true }

/-! ### Well-formedness: each check refuses an ill-formed term -/

theorem test_wellFormed_refuses_opcode_bytes :
    (opcodeBytes.map fun b => (Instr.nop b).wellFormed) = List.replicate 8 false := by decide

theorem test_wellFormed_accepts :
    Instr.dpInc.wellFormed ∧ Instr.jnz.wellFormed ∧ (Instr.nop 0x00).wellFormed ∧ (Instr.nop 0xFF).wellFormed := by
  decide

/-! ### Decoding: the words of R67 and R68, bit by bit -/

theorem test_decode_pointer : [0b00111110, 0b00111100].map decodeByte = [.dpInc, .dpDec] := by decide
theorem test_decode_cellArith : [0b00101011, 0b00101101].map decodeByte = [.cInc, .cDec] := by decide
theorem test_decode_channel : [0b00101110, 0b00101100].map decodeByte = [.out, .inp] := by decide
theorem test_decode_jump : [0b01011011, 0b01011101].map decodeByte = [.jz, .jnz] := by decide

/-- V-N1 to V-N5: the ends of the byte range, and the bytes between two opcodes. -/
theorem test_decode_nop : [0b00000000, 0b11111111, 0b00001010, 0b00111101, 0b01011100].map decodeByte =
    [.nop 0x00, .nop 0xFF, .nop 0x0A, .nop 0x3D, .nop 0x5C] := by decide

/-- R66: one byte is taken, the bytes after it stay. -/
theorem test_decode_takes_one_byte : decode [0x3E, 0x3C] = .ok (.dpInc, [0x3C]) := by decide
theorem test_decode_refuses_nothing : decode [] = .error .noByte := by decide
theorem test_decodeTableWord : decodeTableWord 8 0x3E = some .dpInc ∧ decodeTableWord 8 0 = some (.nop 0) := by decide

/-! ### One step of each instruction -/

/-- V-P2. -/
theorem test_dpInc_to_last_cell :
    left (fun t => (t.dp.toNat, t.pc, t.state)) (step (runAt [0x3E] 0 29998 [])) = some (29999, 1, .running) := by
  decide

/-- V-P3. -/
theorem test_dpInc_faults_at_last_cell :
    left (fun t => (t.dp.toNat, t.pc, t.status)) (step (runAt [0x3E] 0 29999 [])) = some (29999, 1, 0x0C) := by decide

/-- V-P8. -/
theorem test_dpDec_to_first_cell :
    left (fun t => (t.dp.toNat, t.pc, t.state)) (step (runAt [0x3C] 0 1 [])) = some (0, 1, .running) := by decide

/-- V-P4. -/
theorem test_dpDec_faults_at_first_cell :
    left (fun t => (t.dp.toNat, t.pc, t.status)) (step (runAt [0x3C] 0 0 [])) = some (0, 1, 0x0C) := by decide

/-- V-A2: the cell wraps to 0, which the memory does not list. -/
theorem test_cInc_wraps :
    left (fun t => (t.tape, t.pc, t.state)) (step (runAt [0x2B] 0 3 [(3, 0xFF)])) = some ([], 1, .running) := by decide

/-- V-A9: the neighbours stay. -/
theorem test_cInc_keeps_neighbours :
    left (fun t => t.tape) (step (runAt [0x2B] 0 3 [(2, 0x11), (3, 0x7F), (4, 0x11)])) =
      some [(2, 0x11), (3, 0x80), (4, 0x11)] := by decide

/-- V-A5. -/
theorem test_cDec_wraps :
    left (fun t => (t.tape, t.pc)) (step (runAt [0x2D] 0 0 [])) = some ([(0, 0xFF)], 1) := by decide

/-- V-A6. -/
theorem test_cDec_to_zero :
    left (fun t => (t.tape, t.pc)) (step (runAt [0x2D] 0 0 [(0, 0x01)])) = some ([], 1) := by decide

/-- V-I2: a zero byte is sent. -/
theorem test_out_sends_zero :
    left (fun t => (t.outBytes, t.pc)) (step (runAt [0x2E] 0 0 [])) = some ([0x00], 1) := by decide

/-- V-I8. -/
theorem test_out_waits :
    left (fun t => (t.outBytes, t.pc, t.state)) (step (runAt [0x2E] 0 0 [(0, 5)] [busySink])) =
      some ([], 0, .running) := by decide

/-- V-I4: end-of-input is no zero-write. -/
theorem test_in_eof_keeps_cell :
    left (fun t => (t.tape, t.pc, t.inAnswers)) (step (runAt [0x2C] 0 0 [(0, 7)])) = some ([(0, 7)], 1, 1) := by decide

/-- V-I6: `in_valid` goes before `in_eof`. -/
theorem test_in_valid_before_eof :
    left (fun t => (t.tape, t.pc, t.inAnswers))
      (step (runAt [0x2C] 0 0 [(0, 7)] [{ answers 0x33 with inEof := true }])) = some ([(0, 0x33)], 1, 1) := by decide

/-- V-J3: `[[]]+`. -/
theorem test_jz_skips_nested_loop :
    left (fun t => (t.pc, t.state)) (step (runAt [0x5B, 0x5B, 0x5D, 0x5D, 0x2B] 0 0 [])) = some (4, .running) := by
  decide

/-- V-J5: `[[]`. -/
theorem test_jz_unmatched :
    left (fun t => (t.pc, t.dp, t.status)) (step (runAt [0x5B, 0x5B, 0x5D] 0 0 [])) = some (1, 0, 0x0D) := by decide

/-- V-J14: `+[[-]]`, the outer `]`. -/
theorem test_jnz_to_outer_loop :
    left (fun t => (t.pc, t.state)) (step (runAt [0x2B, 0x5B, 0x5B, 0x2D, 0x5D, 0x5D] 5 0 [(0, 1)])) =
      some (2, .running) := by decide

/-- V-J6: `+]`. -/
theorem test_jnz_unmatched :
    left (fun t => (t.pc, t.tape, t.status)) (step (runAt [0x2B, 0x5D] 1 0 [(0, 1)])) =
      some (2, [(0, 1)], 0x0D) := by decide

/-- V-N1. -/
theorem test_nop_only_advances :
    left (fun t => (t.pc, t.dp, t.tape)) (step (runAt [0x00] 0 4 [(4, 9)])) = some (1, 4, [(4, 9)]) := by decide

/-- R89's byte as the first instruction after reset. -/
theorem test_withFetchWord :
    left (fun t => (t.dp.toNat, t.pc, t.state)) (step (State.reset.withFetchWord 8 0x3E)) = some (1, 1, .running) := by
  decide

/-! ### The run -/

/-- V-F2. -/
theorem test_done :
    left (fun t => (t.pc, t.status)) (step (runAt [0x2B, 0x2B, 0x2B] 3 0 [])) = some (3, 0x02) := by decide

/-- V-X4: `+,` with `abort` raised while `,` waits. -/
theorem test_abort_of_waiting_in :
    left (fun t => (t.pc, t.tape, t.status))
      (step (runAt [0x2B, 0x2C] 1 0 [(0, 1)] [{ aborting with inEof := false, stepFirst := true }])) =
      some (1, [(0, 1)], 0x03) := by decide

/-- V-X7: a fault and `abort` in the same cycle. -/
theorem test_cycle_abort_before_fault :
    left (fun t => (t.pc, t.dp.toNat, t.status)) (cycle (inPhase .exec (runAt [0x3E] 0 29999 [] [aborting]))) =
      some (0, 29999, 0x03) := by decide

/-- V-R1. -/
theorem test_rst :
    left (fun t => (t.status, t.pc, t.dp, t.plen, t.outValid)) (step (runAt [0x2E] 0 5 [(5, 1)] [resetting])) =
      some (0x00, 0, 0, 0, false) := by decide

/-- V-R3: `start` clears the tape. -/
theorem test_start_clears :
    left (fun t => (t.tape, t.pc, t.status, t.outBytes)) (step (ended .done [starting])) =
      some ([], 0, 0x01, []) := by decide

/-- V-R7: the host's tape port at cell 0 and at address 30000. -/
theorem test_tape_port :
    (ended .done [freeRunInput]).tapeRdata = 0x01 ∧
      (ended .done [{ freeRunInput with tapeRaddr := 30000 }]).tapeRdata = 0x00 := by decide

/-- R85: the phase codes. -/
theorem test_phase_codes :
    [Phase.halt, .clear, .fetch, .exec, .scanF, .scanB, .waitOut, .waitIn].map Phase.bits = [0, 1, 2, 3, 4, 5, 6, 7] := by
  decide

/-- R14: `DP_W` is the least width that holds every index below `L`. -/
theorem test_dpWidth : 2 ^ (Config.dpWidth - 1) < Config.tapeLen ∧ Config.tapeLen ≤ 2 ^ Config.dpWidth := by decide

/-! ### Witnesses: encoding and the step -/

theorem witness_DecodeOfEncode : Instr.dpInc.wellFormed = true ∧ (Instr.nop 0x2A).wellFormed = true := by decide

theorem witness_StepRunsDecoded :
    let s := runAt [0x3E] 0 0 []
    s.state = .running ∧ s.now.rst = false ∧ s.abortTaken = false ∧ s.pc < s.plen ∧ Instr.dpInc.wellFormed = true ∧
      decode [s.progByte s.pc] = .ok (.dpInc, []) := by decide

/-! ### Witnesses: the data pointer -/

theorem witness_DpIncMovesUp :
    (runAt [0x3E] 0 0 []).dp.toNat + 1 < Config.tapeLen ∧ (runAt [0x3E] 0 29998 []).dp.toNat + 1 < Config.tapeLen ∧
      Config.tapeLen ≤ (runAt [0x3E] 0 29999 []).dp.toNat + 1 ∧
      Config.tapeLen ≤ (runAt [0x3E] 0 32767 []).dp.toNat + 1 := by decide

theorem witness_DpDecMovesDown :
    0 < (runAt [0x3C] 0 1 []).dp.toNat ∧ 0 < (runAt [0x3C] 0 32767 []).dp.toNat ∧
      (runAt [0x3C] 0 0 []).dp.toNat = 0 := by decide

theorem witness_PointerMovesAreInverse :
    (runAt [] 0 29998 []).dp.toNat + 1 < Config.tapeLen ∧ (runAt [] 0 29999 []).dp.toNat + 1 = Config.tapeLen ∧
      1 ≤ (runAt [] 0 1 []).dp.toNat ∧ (runAt [] 0 1 []).dp.toNat < Config.tapeLen ∧
      1 ≤ (runAt [] 0 29999 []).dp.toNat ∧ (runAt [] 0 29999 []).dp.toNat < Config.tapeLen ∧
      (runAt [] 0 0 []).dp.toNat = 0 := by decide

theorem witness_PointerNeverWraps :
    exec .dpInc (runAt [] 0 0 []) = .next { runAt [] 0 0 [] with dp := 1, pc := 1 } := rfl

/-! ### Witnesses: the current cell and the channels -/

/-- For `CellIncrement`, `CellDecrement` and `CellArithmeticIsModulo`. -/
theorem witness_current_cell :
    (runAt [] 0 0 []).dp.toNat < Config.tapeLen ∧ (runAt [] 0 29999 []).dp.toNat < Config.tapeLen := by decide

theorem witness_OutSendsCurrentCell :
    (runAt [] 0 29999 []).dp.toNat < Config.tapeLen ∧ (runAt [] 0 29999 []).now.outReady = true ∧
      (runAt [] 0 29999 [] [busySink]).dp.toNat < Config.tapeLen ∧
      (runAt [] 0 29999 [] [busySink]).now.outReady = false := by decide

theorem witness_InputWritesCurrentCell :
    (runAt [] 0 0 [] [answers 0x41]).dp.toNat < Config.tapeLen ∧
      (runAt [] 0 0 [] [answers 0x41]).answer = some (.byte 0x41) ∧
      (runAt [] 0 0 [] [{ answers 0x33 with inEof := true }]).answer = some (.byte 0x33) ∧
      (runAt [] 0 0 []).answer = some .eof ∧ (runAt [] 0 0 [] [silentInput]).answer = none := by decide

theorem witness_ChannelTransfersInOrder :
    exec .out (runAt [] 0 0 []) = .next { runAt [] 0 0 [] with pc := 1, outBytes := [0] } ∧
      exec .inp (runAt [] 0 0 []) = .next { runAt [] 0 0 [] with pc := 1, inAnswers := 1 } := ⟨rfl, rfl⟩

theorem witness_WaitChangesNothing_out :
    let s := runAt [0x2E] 0 29999 [] [busySink]
    s.state = .running ∧ s.now.rst = false ∧ s.now.abort = false ∧ s.dp.toNat < Config.tapeLen ∧ s.pc < s.plen ∧
      s.progByte s.pc = 0x2E ∧ s.now.outReady = false := by decide

theorem witness_WaitChangesNothing_in :
    let s := runAt [0x2C] 0 29999 [] [silentInput]
    s.state = .running ∧ s.now.rst = false ∧ s.now.abort = false ∧ s.dp.toNat < Config.tapeLen ∧ s.pc < s.plen ∧
      s.progByte s.pc = 0x2C ∧ s.answer = none := by decide

theorem witness_OutputHandshake :
    let s := inPhase .waitOut (runAt [0x2E] 0 29999 [])
    let b := inPhase .waitOut (runAt [0x2E] 0 29999 [] [busySink])
    (s.outValid = true ∧ s.phase = .waitOut ∧ s.now.rst = false ∧ s.now.abort = false ∧ s.dp.toNat < Config.tapeLen ∧
      s.now.outReady = true) ∧
    (b.phase = .waitOut ∧ b.now.rst = false ∧ b.now.abort = false ∧ b.dp.toNat < Config.tapeLen ∧
      b.now.outReady = false) := by decide

theorem witness_InputHandshake :
    let v := inPhase .waitIn (runAt [0x2C] 0 29999 [] [answers 0x41])
    let e := inPhase .waitIn (runAt [0x2C] 0 29999 [])
    let n := inPhase .waitIn (runAt [0x2C] 0 29999 [] [silentInput])
    (v.inReq = true ∧ v.phase = .waitIn ∧ v.now.rst = false ∧ v.now.abort = false ∧ v.dp.toNat < Config.tapeLen ∧
      v.now.inValid = true) ∧
    (e.phase = .waitIn ∧ e.now.rst = false ∧ e.now.abort = false ∧ e.dp.toNat < Config.tapeLen ∧
      e.now.inValid = false ∧ e.now.inEof = true) ∧
    (n.phase = .waitIn ∧ n.now.rst = false ∧ n.now.abort = false ∧ n.dp.toNat < Config.tapeLen ∧
      n.now.inValid = false ∧ n.now.inEof = false) := by decide

/-! ### Witnesses: the jumps -/

theorem witness_ForwardJump_falls :
    (runAt [0x5B] 0 29999 [(29999, 1)]).dp.toNat < Config.tapeLen ∧
      (runAt [0x5B] 0 29999 [(29999, 1)]).cell 29999 ≠ 0 := by decide

theorem witness_ForwardJump_taken :
    let s := runAt [0x5B, 0x5B, 0x5D, 0x5D] 0 0 []
    s.dp.toNat < Config.tapeLen ∧ s.cell s.dp.toNat = 0 ∧ FwdMatch s s.pc 3 :=
  ⟨by decide, by decide, by decide, by decide, by decide, by decide, by decide⟩

theorem witness_ForwardJump_unmatched :
    let s := runAt [0x5B] 0 0 []
    s.dp.toNat < Config.tapeLen ∧ s.cell s.dp.toNat = 0 ∧ ∀ m : Nat, ¬ FwdMatch s s.pc m := by
  refine ⟨by decide, by decide, fun m h => ?_⟩
  have h1 : 0 < m := h.after
  have h2 : m < 1 := h.inside
  omega

theorem witness_BackwardJump_falls :
    (runAt [0x5D] 0 29999 []).dp.toNat < Config.tapeLen ∧ (runAt [0x5D] 0 29999 []).cell 29999 = 0 := by decide

theorem witness_BackwardJump_taken :
    let s := runAt [0x5B, 0x5B, 0x5D, 0x5D] 3 0 [(0, 1)]
    s.dp.toNat < Config.tapeLen ∧ s.cell s.dp.toNat ≠ 0 ∧ BwdMatch s s.pc 0 :=
  ⟨by decide, by decide, by decide, by decide, by decide, by decide⟩

theorem witness_BackwardJump_unmatched :
    let s := runAt [0x5D] 0 0 [(0, 7)]
    s.dp.toNat < Config.tapeLen ∧ s.cell s.dp.toNat ≠ 0 ∧ ∀ m : Nat, ¬ BwdMatch s s.pc m := by
  refine ⟨by decide, by decide, fun m h => ?_⟩
  have : m < 0 := h.before
  omega

theorem witness_ScanFindsBalancingBracket :
    scanFwd (runAt [0x5B, 0x5B, 0x5D, 0x5D] 0 0 []) 0 = .found 3 ∧
      scanBwd (runAt [0x5B, 0x5B, 0x5D, 0x5D] 0 0 []) 3 = .found 0 := by decide

/-- At both ends of each range, and scans that fail. -/
theorem witness_ScanRegistersStayInRange :
    let s := runAt [0x5B, 0x5B, 0x5D] 0 0 []
    let r := runAt [0x5B, 0x5D, 0x5D] 2 0 []
    (0 < s.plen ∧ scanFwdStep s 1 1 = .more 2 2 ∧ scanFwdStep s 2 2 = .more 3 1 ∧
      scanFwd s 0 = .offEnd 3 1) ∧
    (2 < r.plen ∧ scanBwdStep r 1 1 = .more 0 2 ∧ scanBwdStep r 0 2 = .more (-1) 1 ∧ scanBwd r 2 = .offEnd (-1) 1) := by decide

theorem witness_MatchingIsSymmetric :
    let s := runAt [0x5B, 0x5B, 0x5D, 0x5D] 0 0 []
    (s.progByte 0 = openByte ∧ scanFwd s 0 = .found 3) ∧
      (s.progByte 3 = closeByte ∧ 3 < s.plen ∧ scanBwd s 3 = .found 0) := by decide

theorem witness_MatchedLoopIsWhile :
    let s := runAt [0x5B, 0x2D, 0x5D] 0 29999 []
    let r := runAt [0x5B, 0x2D, 0x5D] 2 29999 [(29999, 1)]
    (s.dp.toNat < Config.tapeLen ∧ s.progByte 0 = openByte ∧ FwdMatch s 0 2 ∧ s.pc = 0) ∧
      (r.dp.toNat < Config.tapeLen ∧ r.progByte 0 = openByte ∧ FwdMatch r 0 2 ∧ r.pc = 2) :=
  ⟨⟨by decide, by decide, ⟨by decide, by decide, by decide, by decide, by decide⟩, rfl⟩,
    ⟨by decide, by decide, ⟨by decide, by decide, by decide, by decide, by decide⟩, rfl⟩⟩

theorem witness_UnmatchedOnlyWhenTaken :
    (runAt [0x5B] 0 0 []).state = .running ∧
      exec .jz (runAt [0x5B] 0 0 []) =
        .next { runAt [0x5B] 0 0 [] with pc := 1, state := .faultUnmatched, phase := .halt, scanJ := 1, depth := 1 } :=
  ⟨rfl, rfl⟩

/-! ### Witnesses: what every instruction leaves -/

/-- For `PcStaysInProgram`, `PcAdvancesByOne`, `OnlyCurrentCellWritten` and `ProgramNeverWritten`. -/
theorem witness_next_state :
    (runAt [0x2B] 0 0 []).pc < (runAt [0x2B] 0 0 []).plen ∧
      exec .cInc (runAt [0x2B] 0 0 []) = .next { runAt [0x2B] 0 0 [] with pc := 1, tape := [(0, 1)] } ∧
      Instr.cInc ≠ .jz ∧ Instr.cInc ≠ .jnz :=
  ⟨by decide, rfl, by decide, by decide⟩

/-- The second clause of `OnlyCurrentCellWritten`, and the waiting case of `PcStaysInProgram`. -/
theorem witness_waiting_state :
    (runAt [0x2E] 0 0 [] [busySink]).pc < (runAt [0x2E] 0 0 [] [busySink]).plen ∧
      exec .out (runAt [0x2E] 0 0 [] [busySink]) = .next (runAt [0x2E] 0 0 [] [busySink]) ∧
      Instr.out ≠ .cInc ∧ Instr.out ≠ .cDec ∧ Instr.out ≠ .inp :=
  ⟨by decide, rfl, by decide, by decide, by decide⟩

/-- For `FaultEntry` and `OutOfBoundsCauses`. -/
theorem witness_FaultEntry :
    (runAt [0x3C] 0 0 []).state = .running ∧
      exec .dpDec (runAt [0x3C] 0 0 []) =
        .next { runAt [0x3C] 0 0 [] with pc := 1, state := .faultOob, phase := .halt } ∧
      RunState.faultOob ≠ .running :=
  ⟨rfl, rfl, by decide⟩

/-! ### Witnesses: run control -/

theorem witness_ResetSetsState :
    (runAt [0x2E] 0 5 [] [resetting]).now.rst = true ∧
      (inPhase .waitOut (runAt [0x2E] 0 5 [] [resetting])).now.rst = true := by decide

theorem witness_StartBeginsRun :
    (let s := ended .done [starting]; s.now.rst = false ∧ s.now.start = true ∧ s.state ≠ .running) ∧
      ((runAt [0x2B] 0 0 []).state = .running ∧ freeRunInput.rst = false) := by decide

/-- With a program of one byte, and with the empty program. -/
theorem witness_RunEntersAtZero :
    (let s := ended .done [starting, freeRunInput];
      s.state ≠ .running ∧ s.now.rst = false ∧ s.now.start = true ∧ 0 < s.plen ∧
        step s = .next s.startRun.boundary ∧ s.startRun.boundary.now.rst = false ∧
        s.startRun.boundary.now.abort = false) ∧
    (let s := idle [starting, freeRunInput];
      s.state ≠ .running ∧ s.now.rst = false ∧ s.now.start = true ∧ s.plen = 0 ∧
        step s = .next s.startRun.boundary ∧ s.startRun.boundary.now.rst = false ∧
        s.startRun.boundary.now.abort = false) :=
  ⟨⟨by decide, rfl, rfl, by decide, rfl, rfl, rfl⟩, ⟨by decide, rfl, rfl, rfl, rfl, rfl, rfl⟩⟩

theorem witness_LoadPortWrites :
    (let s := idle [{ freeRunInput with progWe := true, plenWe := true }];
      s.now.rst = false ∧ s.state ≠ .running ∧ s.now.start = false) ∧
    (let s := idle [{ starting with progWe := true }];
      s.now.rst = false ∧ s.state ≠ .running ∧ s.now.start = true) ∧
    (let s := runAt [0x2B] 0 0 [] [{ freeRunInput with progWe := true }];
      s.now.rst = false ∧ s.state = .running ∧ left (fun t => t.plen) (step s) = some 1) := by decide

theorem witness_DoneAtEndOfProgram :
    let s := runAt [0x2B] 1 0 []
    s.state = .running ∧ s.now.rst = false ∧ s.now.abort = false ∧ s.plen ≤ s.pc := by decide

theorem witness_AbortStep :
    (let s := runAt [0x2B] 0 0 [] [aborting];
      s.state = .running ∧ s.now.rst = false ∧ s.now.abort = true ∧ s.now.stepFirst = false) ∧
    (let s := runAt [0x2E] 0 0 [] [{ aborting with outReady := false, stepFirst := true }];
      s.state = .running ∧ s.now.rst = false ∧ s.now.abort = true ∧ s.waits = true) := by decide

theorem witness_AbortRaceAdmitsBothOrders :
    let s := runAt [0x2B] 0 0 []
    s.state = .running ∧ s.script = freeRunInput :: [] ∧ freeRunInput.rst = false ∧ s.waits = false := by decide

theorem witness_AbortIgnoredOutsideRun :
    (ended .done [freeRunInput]).state ≠ .running ∧ (inPhase .clear (runAt [] 0 0 [])).phase = .clear := by decide

/-- The third clause: `abort` held from before `start`. -/
theorem witness_AbortIgnoredOutsideRun_held :
    let s := idle [{ starting with abort := true }, aborting]
    ∃ t : State, s.state ≠ .running ∧ s.now.rst = false ∧ s.now.start = true ∧ step s = .next t ∧
      t.now.rst = false ∧ t.now.abort = true ∧ t.now.stepFirst = false :=
  ⟨(idle [{ starting with abort := true }, aborting]).startRun.boundary, by decide, by decide, by decide, rfl,
    by decide, by decide, by decide⟩

theorem witness_TerminalStatePersists :
    ∀ e ∈ [RunState.done, .aborted, .faultOob, .faultUnmatched],
      (ended e [aborting]).state.terminal = true ∧ (ended e [aborting]).now.rst = false ∧
        (ended e [aborting]).now.start = false := by decide

theorem witness_RunEndsFourWays :
    (runAt [0x2B] 1 0 []).state = .running ∧
      step (runAt [0x2B] 1 0 []) = .next ((runAt [0x2B] 1 0 []).haltRun .done).boundary ∧
      ((runAt [0x2B] 1 0 []).haltRun .done).boundary.state ≠ .running :=
  ⟨rfl, rfl, by decide⟩

theorem witness_RunIgnoresLoadAndStart :
    let h := freeRunInput
    let h' := { starting with progWe := true, plenWe := true, tapeRaddr := 7 }
    (runAt [0x2B] 0 0 []).state = .running ∧ h' ≠ h ∧ h'.rst = h.rst ∧ h'.abort = h.abort ∧
      h'.stepFirst = h.stepFirst ∧ h'.outReady = h.outReady ∧ h'.inValid = h.inValid ∧ h'.inData = h.inData ∧
      h'.inEof = h.inEof := by decide

theorem witness_StartHidesOldTape :
    let s := ended .faultOob [starting]
    s.state ≠ .running ∧ s.now.rst = false ∧ s.now.start = true := by decide

/-- A store that differs from the state's at `PLEN`. -/
theorem witness_BytesBeyondPlenUnread :
    let s := runAt [0x5B, 0x5D] 0 0 []
    s.state = .running ∧ s.now.rst = false ∧
      ∀ i, i < s.plen →
        (Memory.lookup [(0, 0x5B), (1, 0x5D), (2, 0x2B)] i).getD (Config.unwrittenProg i) = s.progByte i := by
  refine ⟨rfl, by decide, fun i hi => ?_⟩
  have hi : i < 2 := hi
  match i with
  | 0 => rfl
  | 1 => rfl
  | _ + 2 => omega

theorem witness_LaunchPremiseIsKept :
    LaunchReady (runAt [0x5B, 0x5D] 0 0 []) ∧ (runAt [0x5B, 0x5D] 0 0 []).state = .running ∧
      ∃ t : State, step (runAt [0x5B, 0x5D] 0 0 []) = .next t := by
  refine ⟨fun i hi => ?_, rfl, _, rfl⟩
  have hi : i < 2 := hi
  match i with
  | 0 => rfl
  | 1 => rfl
  | _ + 2 => omega

/-! ### Witnesses: the ports -/

theorem witness_TapeReadPort :
    (let s := ended .done [{ freeRunInput with tapeRaddr := 30000 }];
      s.state ≠ .running ∧ Config.tapeLen ≤ s.now.tapeRaddr.toNat) ∧
    (let s := ended .done [{ freeRunInput with tapeRaddr := 29999 }];
      s.state ≠ .running ∧ s.now.tapeRaddr.toNat < Config.tapeLen ∧ s.tapeUnknown = none) := by decide

theorem witness_RegistersFitTheirWidths :
    (StoresOk State.reset ∧ State.reset.state ≠ .running) ∧ 0 ≤ Config.progMax ∧
      1 ≤ Config.progMax + 1 ∧ Config.progMax < 2 ^ (Config.progMax + 1) :=
  ⟨⟨reset_storesOk, by decide⟩, Nat.zero_le _, Nat.le_add_left _ _,
    Nat.lt_trans (Nat.lt_succ_self _) Nat.lt_two_pow_self⟩

/-- The last clause: a `[` on a zero cell with no partner. A width of at least 1 holds a program of one byte. -/
theorem witness_RegistersFitTheirWidths_exec :
    WidthsOk (runAt [0x5B] 0 0 []) ∧ (runAt [0x5B] 0 0 []).pc < (runAt [0x5B] 0 0 []).plen ∧
      ∃ t : State, exec .jz (runAt [0x5B] 0 0 []) = .next t := by
  have w : 2 ^ 1 ≤ 2 ^ Config.pcWidth := Nat.pow_le_pow_right (by decide) (Nat.le_max_left _ _)
  exact ⟨{ reset_widthsOk with plen := show 1 < 2 ^ Config.pcWidth by omega }, by decide, _, rfl⟩

/-! ### Witnesses: invariants. `PROG_MAX` may be 0 (R13), so that `PLEN` is 0 in each. -/

/-- For `StepKeepsInvariant` and `StepNeverStops`. -/
theorem witness_StepKeepsInvariant :
    Inv (idle [starting]) ∧ step (idle [starting]) = .next (idle [starting]).startRun.boundary :=
  have k : StoresOk (idle [starting]) := reset_storesOk.congr rfl rfl rfl rfl (Nat.zero_le _)
  ⟨⟨k, reset_widthsOk.congr k rfl rfl, fun h => (by cases h), rfl, by decide⟩, rfl⟩

/-- In a run. -/
theorem witness_StepKeepsInvariant_running :
    Inv (runAt [] 0 0 []) ∧ step (runAt [] 0 0 []) = .next ((runAt [] 0 0 []).haltRun .done).boundary :=
  have k : StoresOk (runAt [] 0 0 []) := reset_storesOk.congr rfl rfl rfl rfl (Nat.zero_le _)
  ⟨⟨k, reset_widthsOk.congr k rfl rfl, fun _ => Nat.le_refl 0, rfl, by decide⟩, rfl⟩

/-- For `CycleKeepsInvariant`. -/
theorem witness_CycleKeepsInvariant : CycleInv State.reset where
  stores := reset_storesOk
  widths := reset_widthsOk
  halted := by decide
  clearing h := by cases h
  fetching h := by cases h
  inside h := by revert h; decide
  scanningF h := by cases h
  scanningB h := by cases h

theorem witness_CycleAbortComesFirst :
    (let s := inPhase .scanF (runAt [0x5B] 0 0 [] [aborting]);
      s.now.rst = false ∧ s.now.abort = true ∧ s.phase ≠ .halt ∧ s.phase ≠ .clear) ∧
    (let s := { inPhase .clear (runAt [0x5B] 0 0 [] [aborting]) with clrA := 29999 };
      s.now.rst = false ∧ s.now.abort = true ∧ s.phase = .clear ∧ s.clrA.toNat < Config.tapeLen) := by decide

/-- `[` on a zero cell, with room for its scan. -/
theorem witness_CyclesRefineStep :
    let s := runAt [0x5B] 0 29999 [] (List.replicate 5 freeRunInput)
    s.state = .running ∧ s.phase = .fetch ∧ s.pc ≤ s.plen ∧ s.dp.toNat < Config.tapeLen ∧ s.now.rst = false ∧
      s.now.abort = false ∧ s.now.outReady = true ∧ s.answer ≠ none ∧
      (∀ k, k ≤ s.plen + 3 → s.inputAt k = s.now) := by
  refine ⟨rfl, rfl, by decide, by decide, by decide, by decide, by decide, by decide, fun k hk => ?_⟩
  have hk : k ≤ 4 := hk
  interval_cases k <;> rfl

theorem witness_ClearRefinesStart :
    let s := idle (starting :: List.replicate Config.tapeLen freeRunInput)
    CycleInv s ∧ s.state ≠ .running ∧ s.now.start = true ∧
      (∀ k, k ≤ Config.tapeLen → (s.inputAt k).rst = false) := by
  have k : StoresOk (idle (starting :: List.replicate Config.tapeLen freeRunInput)) :=
    reset_storesOk.congr rfl rfl rfl rfl (Nat.zero_le _)
  refine ⟨⟨k, reset_widthsOk.congr k rfl rfl, by decide, fun h => (by cases h), fun h => (by cases h),
    fun h => (by revert h; decide), fun h => (by cases h), fun h => (by cases h)⟩, by decide, rfl, fun k hk => ?_⟩
  match k with
  | 0 => rfl
  | k + 1 =>
    have hk : k < Config.tapeLen := hk
    show (((List.replicate Config.tapeLen freeRunInput)[k]?).getD _).rst = false
    rw [List.getElem?_replicate, if_pos hk]
    rfl

/-- A clear of the last cell, a `+` in EXEC, the two ends of a scan, and the load port outside a run. -/
theorem witness_ArbiterGrantsWrites :
    let c := { inPhase .clear (runAt [] 0 0 [(29999, 1)]) with clrA := 29999 }
    let e := inPhase .exec (runAt [0x2B] 0 29999 [])
    let f := inPhase .scanF (runAt [0x5B] 0 0 [])
    let h := ended .done [{ freeRunInput with progWe := true }]
    ((c.phase = .halt ↔ c.state ≠ .running) ∧ c.state = .running ∧ c.phase = .clear ∧ c.now.rst = false ∧
      left (fun t => t.tape) (cycle c) = some []) ∧
    ((e.phase = .halt ↔ e.state ≠ .running) ∧ e.state = .running ∧ e.phase ≠ .clear ∧
      left (fun t => t.tape) (cycle e) = some [(29999, 1)]) ∧
    ((f.phase = .halt ↔ f.state ≠ .running) ∧ f.state = .running ∧ (f.phase = .scanF ∨ f.phase = .scanB) ∧
      left (fun t => t.tape) (cycle f) = some []) ∧
    ((h.phase = .halt ↔ h.state ≠ .running) ∧ h.state ≠ .running ∧ h.now.progWe = true) := by decide

/-- R52: the owners in two phases of a run. -/
theorem test_arbiter_owners :
    (inPhase .clear (runAt [] 0 0 [])).tapeOwner = .startClear ∧ (inPhase .fetch (runAt [] 0 0 [])).tapeOwner = .execute ∧
      (inPhase .fetch (runAt [] 0 0 [])).progOwner = some .fetch ∧
      (inPhase .scanB (runAt [] 0 0 [])).progOwner = some .matcher := by decide

/-- Another store that differs in every byte but the one read; and one that differs in all, where none is read. -/
theorem witness_ProgramReadsFollowArbiter :
    let other : Memory := [(0, 0x2B), (1, 0x2B), (2, 0x5D)]
    let f := inPhase .fetch (runAt [0x5B, 0x5B, 0x5D] 2 0 [])
    let m := { inPhase .scanF (runAt [0x5B, 0x5B, 0x5D] 0 0 []) with scanJ := 2, depth := 1 }
    let e := inPhase .exec (runAt [0x5B, 0x5B, 0x5D] 0 0 [])
    (f.state = .running ∧ f.progOwner = some .fetch ∧ (f.withProg other).progByte f.pc = f.progByte f.pc) ∧
    (m.state = .running ∧ m.progOwner = some .matcher ∧
      (m.withProg other).progByte m.scanJ.toNat = m.progByte m.scanJ.toNat) ∧
    (e.state = .running ∧ e.progOwner = none) := by decide

end Sys2Proof.Tests
end

section
/-!
SUPPORT. One pass of a scan keeps the ranges of R108 and R109; an instruction keeps what it never writes, leaves `PC` inside
the program and the matcher's registers inside their ranges. From these: every step keeps `Inv`, every cycle answers a next
state and keeps `CycleInv`, and the registers stay in their widths.
-/
namespace Sys2Proof.Machine

variable {s t : State}

/-! ### The ranges of a scan's index and counter (R108, R109) -/

/-- A forward scan from `PC`: the counter is at least 1 and at most the distance scanned, and the index is at most `PLEN`. -/
def FwdRange (s : State) (j : Int) (d : Nat) : Prop := 1 ≤ d ∧ (d : Int) + s.pc ≤ j ∧ j ≤ s.plen

/-- A backward scan from `PC`: the counter is at least 1 and at most the distance scanned, and the index is at least -1. -/
def BwdRange (s : State) (j : Int) (d : Nat) : Prop := 1 ≤ d ∧ (d : Int) + j ≤ s.pc ∧ -1 ≤ j

theorem nest_le_succ (up down b : Byte) (d : Nat) : nest up down b d ≤ d + 1 := by
  unfold nest
  split
  · exact le_rfl
  · split <;> omega

theorem scanFwdStep_found {j : Int} {d : Nat} (h : scanFwdStep s j d = .found) : j < s.plen := by
  unfold scanFwdStep at h
  split at h
  · cases h
  · omega

theorem scanFwdStep_more {j j' : Int} {d d' : Nat} (h : scanFwdStep s j d = .more j' d') :
    j < s.plen ∧ j' = j + 1 ∧ 1 ≤ d' ∧ d' ≤ d + 1 := by
  simp only [scanFwdStep] at h
  split at h
  · cases h
  · split at h <;> cases h
    exact ⟨by omega, rfl, by omega, nest_le_succ _ _ _ _⟩

theorem scanBwdStep_found {j : Int} {d : Nat} (h : scanBwdStep s j d = .found) : 0 ≤ j := by
  unfold scanBwdStep at h
  split at h
  · cases h
  · omega

theorem scanBwdStep_more {j j' : Int} {d d' : Nat} (h : scanBwdStep s j d = .more j' d') :
    0 ≤ j ∧ j' = j - 1 ∧ 1 ≤ d' ∧ d' ≤ d + 1 := by
  simp only [scanBwdStep] at h
  split at h
  · cases h
  · split at h <;> cases h
    exact ⟨by omega, rfl, by omega, nest_le_succ _ _ _ _⟩

/-- The forward scan begins in its range, at the byte after a `[` of the program. -/
theorem fwdRange_first (hp : s.pc < s.plen) : FwdRange s ((s.pc : Int) + 1) 1 := ⟨le_rfl, by omega, by omega⟩

/-- The backward scan begins in its range, at the byte before the `]`. -/
theorem bwdRange_first : BwdRange s ((s.pc : Int) - 1) 1 := ⟨le_rfl, by omega, by omega⟩

/-- One pass of the forward loop keeps the range: the counter grows by at most what the index does. -/
theorem FwdRange.more {j j' : Int} {d d' : Nat} (r : FwdRange s j d) (h : scanFwdStep s j d = .more j' d') :
    FwdRange s j' d' := by
  obtain ⟨_, low, _⟩ := r
  obtain ⟨hj, rfl, hd, hle⟩ := scanFwdStep_more h
  exact ⟨hd, by omega, by omega⟩

/-- One pass of the backward loop keeps the range. -/
theorem BwdRange.more {j j' : Int} {d d' : Nat} (r : BwdRange s j d) (h : scanBwdStep s j d = .more j' d') :
    BwdRange s j' d' := by
  obtain ⟨_, high, _⟩ := r
  obtain ⟨hj, rfl, hd, hle⟩ := scanBwdStep_more h
  exact ⟨hd, by omega, by omega⟩

/-- A scan ends with an index and a counter that satisfy whatever its passes keep. -/
theorem scanLoop_keeps {pass : Int → Nat → ScanStep} {P : Int → Nat → Prop}
    (keeps : ∀ {j d j' d'}, P j d → pass j d = .more j' d' → P j' d') (n : Nat) {j : Int} {d : Nat} (h : P j d) :
    (∃ j' d', P j' d' ∧ scanLoop pass n j d = .offEnd j' d') ∨
    (∃ j' d', P j' d' ∧ pass j' d' = .found ∧ scanLoop pass n j d = .found j') := by
  induction n generalizing j d with
  | zero => exact .inl ⟨j, d, h, rfl⟩
  | succ n ih =>
    simp only [scanLoop]
    cases e : pass j d with
    | offEnd => exact .inl ⟨j, d, h, rfl⟩
    | found => exact .inr ⟨j, d, h, e, rfl⟩
    | more j' d' => exact ih (keeps h e)

/-- A scan's end inside a program of `n` bytes: a match is one of its bytes; a failed scan leaves an index from -1 to `n` and
a counter of at most `n`. -/
def ScanEnd.Within (n : Nat) : ScanEnd → Prop
  | .offEnd j d => -1 ≤ j ∧ j ≤ n ∧ d ≤ n
  | .found j => 0 ≤ j ∧ j < n

/-- What the ranges of a scan inside the program say of an index and a counter, the match apart. -/
theorem FwdRange.within {j : Int} {d : Nat} (r : FwdRange s j d) : (ScanEnd.offEnd j d).Within s.plen := by
  obtain ⟨_, low, high⟩ := r
  exact ⟨by omega, high, by omega⟩

theorem BwdRange.within {j : Int} {d : Nat} (r : BwdRange s j d) (hp : s.pc < s.plen) :
    (ScanEnd.offEnd j d).Within s.plen := by
  obtain ⟨_, high, low⟩ := r
  exact ⟨low, by omega, by omega⟩

/-- The match a forward pass finds is a byte of the program. -/
theorem FwdRange.found_within {j : Int} {d : Nat} (r : FwdRange s j d) (h : scanFwdStep s j d = .found) :
    (ScanEnd.found j).Within s.plen := by
  obtain ⟨_, low, _⟩ := r
  exact ⟨by omega, scanFwdStep_found h⟩

/-- The match a backward pass finds is a byte of the program. -/
theorem BwdRange.found_within {j : Int} {d : Nat} (r : BwdRange s j d) (hp : s.pc < s.plen)
    (h : scanBwdStep s j d = .found) : (ScanEnd.found j).Within s.plen := by
  obtain ⟨_, high, _⟩ := r
  exact ⟨scanBwdStep_found h, by omega⟩

theorem scanFwd_within (hp : s.pc < s.plen) : (scanFwd s s.pc).Within s.plen := by
  unfold scanFwd
  obtain ⟨j, d, r, e⟩ | ⟨j, d, r, hf, e⟩ := scanLoop_keeps FwdRange.more (s.plen + 1) (fwdRange_first hp)
  · rw [e]; exact r.within
  · rw [e]; exact r.found_within hf

theorem scanBwd_within (hp : s.pc < s.plen) : (scanBwd s s.pc).Within s.plen := by
  unfold scanBwd
  obtain ⟨j, d, r, e⟩ | ⟨j, d, r, hf, e⟩ := scanLoop_keeps BwdRange.more (s.pc + 1) (bwdRange_first (s := s))
  · rw [e]; exact r.within hp
  · rw [e]; exact r.found_within hp hf

/-! ### What an instruction keeps -/

theorem SameFixed.endScan (s : State) (r : ScanEnd) : SameFixed s (s.endScan r) :=
  ⟨s.endScan_prog r, s.endScan_plen r, s.endScan_ir r, s.endScan_clrA r, s.endScan_tapeUnknown r, s.endScan_script r,
    s.endScan_tick r⟩

/-- No instruction writes what R20 and R63 leave to the host and to the fetch. -/
theorem exec_sameFixed {i : Instr} (x : exec i s = .next t) : SameFixed s t := by
  cases exec_effect x with
  | jz => exact .endScan s _
  | jnz => exact .endScan s _
  | _ => exact ⟨rfl, rfl, rfl, rfl, rfl, rfl, rfl⟩

/-- An instruction leaves `STATE` as it is or raises an exception. -/
theorem exec_state {i : Instr} (x : exec i s = .next t) : t.state = s.state ∨ ∃ c : Cause, t.state = c.code := by
  have scan : ∀ r, (s.endScan r).state = s.state ∨ ∃ c : Cause, (s.endScan r).state = c.code
    | .offEnd _ _ => .inr ⟨.unmatchedBracket, rfl⟩
    | .found _ => .inl rfl
  cases exec_effect x with
  | dpIncFault => exact .inr ⟨.outOfBounds, rfl⟩
  | dpDecFault => exact .inr ⟨.outOfBounds, rfl⟩
  | jz => exact scan _
  | jnz => exact scan _
  | _ => exact .inl rfl

/-- `PC` after an instruction, and the matcher's registers: as they were, or a scan's own. -/
structure RegsWithin (s t : State) : Prop where
  pc : t.pc ≤ s.plen
  scan : (t.depth = s.depth ∧ t.scanJ = s.scanJ) ∨ (t.depth ≤ s.plen ∧ -1 ≤ t.scanJ ∧ t.scanJ ≤ s.plen)

theorem RegsWithin.endScan (hp : s.pc < s.plen) {r : ScanEnd} (h : r.Within s.plen) : RegsWithin s (s.endScan r) := by
  cases r with
  | offEnd j d =>
    obtain ⟨low, high, hd⟩ := h
    exact ⟨hp, .inr ⟨hd, low, high⟩⟩
  | found j =>
    obtain ⟨low, high⟩ := h
    exact ⟨show (j + 1).toNat ≤ s.plen by omega, .inr ⟨Nat.zero_le _, show -1 ≤ j by omega, high.le⟩⟩

/-- An instruction of the program leaves `PC` at most at `PLEN` and the matcher's registers in the ranges of R108 and R109. -/
theorem exec_regsWithin {i : Instr} (hp : s.pc < s.plen) (x : exec i s = .next t) : RegsWithin s t := by
  cases exec_effect x with
  | jz => exact .endScan hp (scanFwd_within hp)
  | jnz => exact .endScan hp (scanBwd_within hp)
  | outWait => exact ⟨hp.le, .inl ⟨rfl, rfl⟩⟩
  | inpWait => exact ⟨hp.le, .inl ⟨rfl, rfl⟩⟩
  | _ => exact ⟨hp, .inl ⟨rfl, rfl⟩⟩

/-! ### The widths -/

/-- `PC_W` is the least width of at least one bit that holds `PROG_MAX` (R15). -/
theorem Config.pcWidth_le {w : Nat} (one : 1 ≤ w) (h : Config.progMax < 2 ^ w) : Config.pcWidth ≤ w :=
  max_le one (Nat.clog_le_of_le_pow h)

/-- With `PLEN` in its width, registers inside the program fit in theirs. -/
theorem WidthsOk.of_le_plen (w : s.plen < 2 ^ Config.pcWidth) (hpc : s.pc ≤ s.plen) (hd : s.depth ≤ s.plen)
    (hl : -1 ≤ s.scanJ) (hj : s.scanJ ≤ s.plen) : WidthsOk s := by
  have w' : (s.plen : Int) < 2 ^ Config.pcWidth := by exact_mod_cast w
  exact ⟨by omega, w, by omega, by omega, by omega⟩

/-- An instruction of the program keeps the four registers in their widths. -/
theorem exec_keeps_widthsOk {i : Instr} (w : WidthsOk s) (hp : s.pc < s.plen) (x : exec i s = .next t) :
    WidthsOk t := by
  have e := (exec_sameFixed x).plen
  have wt : t.plen < 2 ^ Config.pcWidth := e ▸ w.plen
  obtain ⟨hpc, ⟨hd, hj⟩ | ⟨hd, hl, hj⟩⟩ := exec_regsWithin hp x
  · exact { pc := hpc.trans_lt w.plen, plen := wt, depth := hd ▸ w.depth,
            scanJLow := hj ▸ w.scanJLow, scanJHigh := hj ▸ w.scanJHigh }
  · rw [← e] at hpc hd hj
    exact .of_le_plen wt hpc hd hl hj

/-- The cursors in range and the transient registers forgotten: a boundary keeps the widths. -/
theorem StoresOk.widthsOk_boundary (h : StoresOk s) : WidthsOk s.boundary :=
  have hf : StoresOk s.rephase := h.congr rfl rfl rfl rfl h.pcIn
  hf.widthsOk_forget.congr (h.congr rfl rfl rfl rfl h.pcIn) rfl rfl

/-- Outside a run `pc_out` shows the whole of `PC`, when `PC` is in its width (R42). -/
theorem State.pcOut_toNat (n : s.state ≠ .running) (h : s.pc < 2 ^ Config.pcWidth) : s.pcOut.toNat = s.pc := by
  rw [State.pcOut, if_neg n, BitVec.toNat_ofNat, Nat.mod_eq_of_lt h]

/-- Outside a run `dp_out` shows `DP` (R42). -/
theorem State.dpOut_eq (n : s.state ≠ .running) : s.dpOut = s.dp := if_neg n

/-! ### Every step keeps the invariant -/

theorem boundaryPhase_eq_halt_iff {e : RunState} : boundaryPhase e = .halt ↔ e ≠ .running := by
  cases e <;> decide

/-- What a step must leave before the boundary's own changes for `Inv` to hold after them. -/
theorem Inv.boundary (h : StoresOk s) (hp : s.state = .running → s.pc ≤ s.plen)
    (hk : s.tapeUnknown = none ↔ s.state ≠ .idle) : Inv s.boundary where
  stores := h.congr rfl rfl rfl rfl h.pcIn
  widths := h.widthsOk_boundary
  pcLe := hp
  phaseEq := rfl
  known := hk

/-- An instruction of the program, in a run, leaves what the boundary needs. -/
theorem Inv.exec {i : Instr} (h : StoresOk s) (r : s.state = .running) (hk : s.tapeUnknown = none)
    (hp : s.pc < s.plen) (x : exec i s = .next t) : Inv t.boundary := by
  have f := exec_sameFixed x
  have notIdle : t.state ≠ .idle := by
    obtain e | ⟨c, e⟩ := exec_state x
    · simp [e, r]
    · simp [e]
  exact .boundary (exec_keeps_storesOk h hp x) (fun _ => f.plen.symm ▸ (exec_regsWithin hp x).pc)
    (iff_of_true (f.tapeUnknown.trans hk) notIdle)

/-- Settles O52: one case for each thing a step can do. -/
theorem stepKeepsInvariant : Obligations.StepKeepsInvariant := by
  unfold Obligations.StepKeepsInvariant
  intro s t h x
  obtain ⟨u, hu, rfl⟩ := step_effect x
  have k := h.stores
  have known : s.state = .running → s.tapeUnknown = none := fun r => h.known.2 (by simp [r])
  cases hu with
  | reset => exact .boundary k.resetBlock (by simp) (by simp)
  | start => exact .boundary k.startRun (by simp) (by simp)
  | load _ n => exact .boundary k.load (by simp [n]) (by simpa using h.known)
  | abort _ r => exact .boundary (k.congr rfl rfl rfl rfl k.pcIn) (by simp) (by simp [known r])
  | done _ r => exact .boundary (k.congr rfl rfl rfl rfl k.pcIn) (by simp) (by simp [known r])
  | exec _ r _ e x => exact .exec (s := s.latchIr) (k.congr rfl rfl rfl rfl k.pcIn) r (known r) e x

/-- Settles O50: `PC_W` from the definition of the ceiling logarithm, the registers from the ranges an instruction keeps. -/
theorem registersFitTheirWidths : Obligations.RegistersFitTheirWidths := by
  unfold Obligations.RegistersFitTheirWidths
  refine ⟨fun n hn => hn.trans_lt Config.progMax_lt_width, ⟨Nat.le_max_left _ _, fun w => Config.pcWidth_le⟩,
    fun s h => ?_, fun i s t => exec_keeps_widthsOk⟩
  have hpc := h.pcIn.trans_lt Config.progMax_lt_width
  exact ⟨hpc, h.plenIn.trans_lt Config.progMax_lt_width, fun n => ⟨State.pcOut_toNat n hpc, State.dpOut_eq n⟩⟩

/-! ### Every cycle answers a next state -/

theorem commit_total {o : Host.Outcome State Fault Refusal} (h : ∃ u, o = .next u) : ∃ u, commit o = .next u := by
  obtain ⟨u, rfl⟩ := h
  exact ⟨_, rfl⟩

theorem cycleRun_total {k : Host.Outcome State Fault Refusal} (h : ∃ u, k = .next u) : ∃ u, cycleRun s k = .next u := by
  unfold cycleRun
  split
  · exact ⟨_, rfl⟩
  · exact h

/-- With `DP < L`, phase EXEC answers a next state whatever `IR` holds. -/
theorem cycleExec_total (hd : s.dp.toNat < Config.tapeLen) : ∃ u, cycleExec s = .next u := by
  unfold cycleExec
  cases decodeByte s.ir with
  | out => exact ⟨_, rfl⟩
  | inp => exact ⟨_, rfl⟩
  | jz => exact ⟨_, State.onCell_of_lt hd _⟩
  | jnz => exact ⟨_, State.onCell_of_lt hd _⟩
  | _ => exact commit_total (exec_total _ hd)

/-- With `DP` and the clear's index below `L`, every phase answers a next state. -/
theorem cyclePhase_total (hd : s.dp.toNat < Config.tapeLen) (hc : s.phase = .clear → s.clrA.toNat < Config.tapeLen) :
    ∃ u, cyclePhase s = .next u := by
  unfold cyclePhase
  cases hp : s.phase with
  | halt => exact ⟨_, rfl⟩
  | clear =>
    simp only [cycleClear, if_pos (hc hp)]
    split <;> exact ⟨_, rfl⟩
  | fetch => exact cycleRun_total ⟨_, rfl⟩
  | exec => exact cycleRun_total (cycleExec_total hd)
  | scanF => exact cycleRun_total ⟨_, rfl⟩
  | scanB => exact cycleRun_total ⟨_, rfl⟩
  | waitOut =>
    refine cycleRun_total ?_
    unfold cycleWaitOut
    split
    · exact commit_total (exec_total _ hd)
    · exact ⟨_, rfl⟩
  | waitIn =>
    refine cycleRun_total ?_
    unfold cycleWaitIn
    split
    · exact commit_total (exec_total _ hd)
    · exact ⟨_, rfl⟩

theorem cycle_total (hd : s.dp.toNat < Config.tapeLen) (hc : s.phase = .clear → s.clrA.toNat < Config.tapeLen) :
    ∃ t, cycle s = .next t := by
  cases hr : s.now.rst with
  | true => exact ⟨_, cycle_of_rst hr⟩
  | false =>
    obtain ⟨u, hu⟩ := cyclePhase_total hd hc
    exact ⟨_, cycle_of_phase hr hu⟩

/-! ### The cycle-level invariant, phase by phase -/

/-- The phases of a cycle inside an instruction. -/
abbrev insidePhases : List Phase := [.exec, .scanF, .scanB, .waitOut, .waitIn]

/-- Where no instruction is partly done, and no clear, the invariant asks for the stores, the widths and `PC ≤ PLEN`. -/
theorem CycleInv.of_boundary (k : StoresOk s) (w : WidthsOk s) (hp : s.phase = boundaryPhase s.state)
    (hpc : s.state = .running → s.pc ≤ s.plen) : CycleInv s := by
  by_cases r : s.state = .running
  · have hp : s.phase = .fetch := by rw [hp, r]; rfl
    exact ⟨k, w, by simp [hp, r], by simp [hp], fun _ => hpc r, by simp [hp], by simp [hp], by simp [hp]⟩
  · have hp : s.phase = .halt := hp.trans (boundaryPhase_of_ne r)
    exact ⟨k, w, by simp [hp, r], by simp [hp], by simp [hp], by simp [hp], by simp [hp], by simp [hp]⟩

/-- In the clear the invariant asks for the stores, the widths and the index. -/
theorem CycleInv.of_clear (k : StoresOk s) (w : WidthsOk s) (r : s.state = .running) (hp : s.phase = .clear)
    (hc : s.clrA.toNat < Config.tapeLen) : CycleInv s :=
  ⟨k, w, by simp [hp, r], fun _ => hc, by simp [hp], by simp [hp], by simp [hp], by simp [hp]⟩

/-- Inside an instruction the invariant asks for `PC`, `IR` and, in a scan, the matcher's registers. -/
theorem CycleInv.of_inside (k : StoresOk s) (w : WidthsOk s) (r : s.state = .running) (hp : s.phase ∈ insidePhases)
    (hi : s.pc < s.plen ∧ s.ir = s.progByte s.pc) (hf : s.phase = .scanF → FwdRange s s.scanJ s.depth)
    (hb : s.phase = .scanB → BwdRange s s.scanJ s.depth) : CycleInv s where
  stores := k
  widths := w
  halted := iff_of_false (fun e => by simp [e] at hp) (by simp [r])
  clearing e := by simp [e] at hp
  fetching e := by simp [e] at hp
  inside _ := hi
  scanningF := hf
  scanningB := hb

/-- The passing of the host's inputs keeps the invariant. -/
theorem CycleInv.tickOver (h : CycleInv s) : CycleInv s.tickOver where
  stores := h.stores.congr rfl rfl rfl rfl h.stores.pcIn
  widths := h.widths.congr (h.stores.congr rfl rfl rfl rfl h.stores.pcIn) rfl rfl
  halted := h.halted
  clearing := h.clearing
  fetching := h.fetching
  inside := h.inside
  scanningF := h.scanningF
  scanningB := h.scanningB

theorem CycleInv.running (h : CycleInv s) (hp : s.phase ≠ .halt) : s.state = .running :=
  not_not.1 fun n => hp (h.halted.2 n)

/-- The end of a run in any phase: DONE and ABORTED. -/
theorem CycleInv.haltRun (h : CycleInv s) {e : RunState} (he : e ≠ .running) : CycleInv (s.haltRun e) :=
  have k : StoresOk (s.haltRun e) := h.stores.congr rfl rfl rfl rfl h.stores.pcIn
  .of_boundary k (h.widths.congr k rfl rfl) (boundaryPhase_of_ne he).symm fun r => absurd r he

/-- A scan, entered or gone on with, its index and counter in the scan's range. -/
theorem CycleInv.inScan (h : CycleInv s) (hp : s.phase ∈ insidePhases) {p : Phase} (hq : p ∈ insidePhases) {j : Int}
    {d : Nat} (hw : (ScanEnd.offEnd j d).Within s.plen) (hf : p = .scanF → FwdRange s j d)
    (hb : p = .scanB → BwdRange s j d) : CycleInv ((s.toPhase p).scanOn j d) := by
  obtain ⟨low, high, hd⟩ := hw
  have hi := h.inside hp
  exact .of_inside (h.stores.congr rfl rfl rfl rfl h.stores.pcIn) (.of_le_plen h.widths.plen hi.1.le hd low high)
    (h.running fun e => by simp [e] at hp) hq hi hf hb

/-- A forward scan, entered or gone on with. -/
theorem CycleInv.inScanF (h : CycleInv s) (hp : s.phase ∈ insidePhases) {j : Int} {d : Nat} (r : FwdRange s j d) :
    CycleInv ((s.toPhase .scanF).scanOn j d) :=
  h.inScan hp (by decide) r.within (fun _ => r) (fun e => by cases e)

/-- A backward scan, entered or gone on with. -/
theorem CycleInv.inScanB (h : CycleInv s) (hp : s.phase ∈ insidePhases) {j : Int} {d : Nat} (r : BwdRange s j d) :
    CycleInv ((s.toPhase .scanB).scanOn j d) :=
  h.inScan hp (by decide) (r.within (h.inside hp).1) (fun e => by cases e) (fun _ => r)

/-- From EXEC to a channel wait. -/
theorem CycleInv.toWait (h : CycleInv s) (hp : s.phase = .exec) {p : Phase} (hq : p ∈ [Phase.waitOut, .waitIn]) :
    CycleInv (s.toPhase p) := by
  have k : StoresOk (s.toPhase p) := h.stores.congr rfl rfl rfl rfl h.stores.pcIn
  have sub : [Phase.waitOut, .waitIn] ⊆ insidePhases := by decide
  refine .of_inside k (h.widths.congr k rfl rfl) (h.running (by simp [hp])) (sub hq) (h.inside (by simp [hp])) ?_ ?_
  · rintro rfl; simp at hq
  · rintro rfl; simp at hq

/-- The end of an instruction: `PC` in the program, the phase of a boundary. -/
theorem CycleInv.rephase (k : StoresOk s) (w : WidthsOk s) (hpc : s.pc ≤ s.plen) : CycleInv s.rephase :=
  .of_boundary (k.congr rfl rfl rfl rfl k.pcIn) ⟨w.pc, w.plen, w.depth, w.scanJLow, w.scanJHigh⟩ rfl fun _ => hpc

/-- An instruction that commits. -/
theorem CycleInv.commit (h : CycleInv s) {i : Instr} (hp : s.pc < s.plen) (x : exec i s = .next t) :
    CycleInv t.rephase :=
  .rephase (exec_keeps_storesOk h.stores hp x) (exec_keeps_widthsOk h.widths hp x)
    ((exec_sameFixed x).plen.symm ▸ (exec_regsWithin hp x).pc)

/-- The phases in which an instruction commits are inside it. -/
theorem CommitsIn.inside {i : Instr} (h : CommitsIn s i) : s.phase ∈ insidePhases := by
  cases i with
  | out => obtain ⟨hp, _⟩ := h; simp [hp]
  | inp => obtain ⟨hp, _⟩ := h; simp [hp]
  | jz => cases h
  | jnz => cases h
  | _ => simp [show s.phase = .exec from h]

/-- One pass of the matcher, whose match is a byte of the program and which else goes on in its range. -/
theorem CycleInv.cycleScan (h : CycleInv s) (hp : s.phase ∈ insidePhases) {r : ScanStep}
    (found : r = .found → (ScanEnd.found s.scanJ).Within s.plen)
    (more : ∀ j d, r = .more j d → CycleInv (s.scanOn j d)) : CycleInv (cycleScan s r) := by
  have lt := (h.inside hp).1
  have le := h.stores.plenIn
  cases r with
  | offEnd =>
    have k : StoresOk (s.raiseFault .unmatchedBracket) := h.stores.congr rfl rfl rfl rfl (lt.trans_le le)
    exact .of_boundary k (h.widths.congr k rfl rfl) rfl fun e => by cases e
  | found =>
    obtain ⟨low, high⟩ := found rfl
    have hpc : (s.scanJ + 1).toNat ≤ s.plen := by omega
    exact .rephase (h.stores.congr rfl rfl rfl rfl (hpc.trans le))
      (.of_le_plen h.widths.plen hpc (Nat.zero_le _) (show -1 ≤ s.scanJ by omega) high.le) hpc
  | more j d => exact more j d rfl

/-- A jump in EXEC: not taken it commits, taken it enters its scan. -/
theorem CycleInv.cycleJump (h : CycleInv s) (hp : s.phase = .exec) {taken : Bool} {scan : Phase} {first : Int}
    (enter : CycleInv (s.enterScan scan first)) : CycleInv (cycleJump s taken scan first) := by
  have lt := (h.inside (by simp [hp])).1
  cases taken with
  | true => exact enter
  | false =>
    have k : StoresOk s.retire := h.stores.congr rfl rfl rfl rfl (lt.trans_le h.stores.plenIn)
    exact .rephase k (h.widths.congr k rfl rfl) lt

/-- FETCH: the end of the program, or the byte at `PC` in `IR`. -/
theorem CycleInv.cycleFetch (h : CycleInv s) (hp : s.phase = .fetch) : CycleInv (cycleFetch s) := by
  unfold Machine.cycleFetch
  split
  · exact h.haltRun (by decide)
  · have k : StoresOk (s.latchIr.toPhase .exec) := h.stores.congr rfl rfl rfl rfl h.stores.pcIn
    exact .of_inside k (h.widths.congr k rfl rfl) (h.running (by simp [hp])) (by simp) ⟨Nat.lt_of_not_le ‹_›, rfl⟩
      (fun e => by cases e) (fun e => by cases e)

/-- HALT: the clear begins at cell 0, or the load port writes. -/
theorem CycleInv.cycleHalt (h : CycleInv s) (hp : s.phase = .halt) : CycleInv (cycleHalt s) := by
  have n := h.halted.1 hp
  unfold Machine.cycleHalt
  rw [if_neg n]
  split
  · have k : StoresOk s.enterClear := h.stores.congr rfl rfl rfl rfl h.stores.pcIn
    exact .of_clear k (h.widths.congr k rfl rfl) rfl rfl zero_in_tape
  · have k := h.stores.load
    exact .of_boundary k (h.widths.congr k (by simp) (by simp)) (by simp [hp, boundaryPhase_of_ne n]) (by simp [n])

theorem StoresOk.clearOne (k : StoresOk s) (hc : s.clrA.toNat < Config.tapeLen) : StoresOk s.clearOne :=
  (k.setCell hc 0).congr rfl rfl rfl rfl k.pcIn

/-- CLEAR, before the last cell: the index stays below `L`. -/
theorem CycleInv.clearOne (h : CycleInv s) (hp : s.phase = .clear) (hc : s.clrA.toNat + 1 < Config.tapeLen) :
    CycleInv s.clearOne := by
  have k := h.stores.clearOne (Nat.lt_of_succ_lt hc)
  refine .of_clear k (h.widths.congr k rfl rfl) (h.running (by simp [hp])) hp ?_
  have e : Config.tapeLen = 30000 := rfl
  rw [State.clearOne_clrA, BitVec.toNat_add, show (1 : TapeIndex).toNat = 1 from rfl]
  omega

/-- CLEAR, at the last cell: both cursors at 0, and the first fetch next. -/
theorem CycleInv.clearLast (h : CycleInv s) (hp : s.phase = .clear) (hc : s.clrA.toNat + 1 = Config.tapeLen) :
    CycleInv s.clearOne.enterRun := by
  have k0 := h.stores.clearOne (by omega)
  have k : StoresOk s.clearOne.enterRun := { k0 with dpIn := zero_in_tape, pcIn := Nat.zero_le _ }
  have r := h.running (by simp [hp])
  exact .of_boundary k (h.widths.congr k rfl rfl) (by simp [r]) fun _ => Nat.zero_le _

/-- Reset, in any phase. -/
theorem CycleInv.resetBlock (k : StoresOk s) : CycleInv s.resetBlock.forget :=
  .of_boundary (k.resetBlock.congr rfl rfl rfl rfl (Nat.zero_le _)) k.resetBlock.widthsOk_forget rfl (by simp)

/-- Every effect a cycle can have keeps the invariant. -/
theorem CycleEffect.keeps_cycleInv (h : CycleInv s) (x : CycleEffect s t) : CycleInv t := by
  cases x with
  | reset => exact .resetBlock h.stores
  | halt _ p => exact h.cycleHalt p
  | clear _ p c => exact h.clearOne p c
  | clearLast _ p c => exact h.clearLast p c
  | abort => exact h.haltRun (by decide)
  | fetch _ _ p => exact h.cycleFetch p
  | toWaitOut _ _ p => exact h.toWait p (by decide)
  | toWaitIn _ _ p => exact h.toWait p (by decide)
  | jz _ _ p =>
    have hp : s.phase ∈ insidePhases := by simp [p]
    exact h.cycleJump p (h.inScanF hp (fwdRange_first (h.inside hp).1))
  | jnz _ _ p => exact h.cycleJump p (h.inScanB (by simp [p]) bwdRange_first)
  | commit _ _ c x => exact h.commit (h.inside c.inside).1 x
  | scanF _ _ p =>
    have hp : s.phase ∈ insidePhases := by simp [p]
    have r : FwdRange s s.scanJ s.depth := h.scanningF p
    have same : s.toPhase .scanF = s := by rw [← p]; rfl
    exact h.cycleScan hp r.found_within fun j d e => same ▸ h.inScanF hp (r.more e)
  | scanB _ _ p =>
    have hp : s.phase ∈ insidePhases := by simp [p]
    have r : BwdRange s s.scanJ s.depth := h.scanningB p
    have same : s.toPhase .scanB = s := by rw [← p]; rfl
    exact h.cycleScan hp (r.found_within (h.inside hp).1) fun j d e => same ▸ h.inScanB hp (r.more e)
  | waitOut => exact h
  | waitIn => exact h

/-- Settles O55: a cycle has a next state, and one case for each thing a cycle can do. -/
theorem cycleKeepsInvariant : Obligations.CycleKeepsInvariant := by
  unfold Obligations.CycleKeepsInvariant
  intro s h
  obtain ⟨t, x⟩ := cycle_total h.stores.dpIn h.clearing
  obtain ⟨u, hu, rfl⟩ := cycle_effect x
  exact ⟨_, x, (hu.keeps_cycleInv h).tickOver⟩

end Sys2Proof.Machine
end

section
/-!
SUPPORT. The architectural state (10_state.md): what an instruction does to `DP`, `PC` and the tape, what stays where no run is in
progress, what a step of a run reads of the program store, and the fields of the `STATUS` word.
-/
namespace Sys2Proof.Machine

variable {s t : State}

/-! ### The data pointer -/

/-- Below the last cell one up does not wrap (R14, R91). -/
theorem dp_succ_toNat {d : TapeIndex} (h : d.toNat + 1 < Config.tapeLen) : (d + 1).toNat = d.toNat + 1 := by
  have e : Config.tapeLen = 30000 := rfl
  exact BitVec.toNat_add_of_lt (y := 1) (show d.toNat + 1 < 2 ^ 15 by omega)

/-- Above cell 0 one down does not wrap (R91). -/
theorem dp_pred_toNat {d : TapeIndex} (h : d ≠ 0) : (d - 1).toNat + 1 = d.toNat := by
  have pos : 1 ≤ d.toNat := Nat.pos_of_ne_zero fun e => h (BitVec.eq_of_toNat_eq e)
  rw [BitVec.toNat_sub_of_le (y := 1) pos]
  exact Nat.sub_add_cancel pos

/-- Settles O9: only the two moves write `DP`, and each is away from the end at which it would wrap. -/
theorem pointerNeverWraps : Obligations.PointerNeverWraps := by
  unfold Obligations.PointerNeverWraps
  intro i s t x
  cases exec_effect x with
  | dpInc h => exact .inr (.inl ⟨rfl, dp_succ_toNat h⟩)
  | dpDec h => exact .inr (.inr ⟨rfl, dp_pred_toNat h⟩)
  | jz => exact .inl (s.endScan_dp _)
  | jnz => exact .inl (s.endScan_dp _)
  | _ => exact .inl rfl

/-! ### The program counter -/

/-- A scan inside the program leaves `PC` above 0, at the byte after its match or after the bracket itself. -/
theorem State.endScan_pc_pos {n : Nat} {r : ScanEnd} (h : r.Within n) : 1 ≤ (s.endScan r).pc := by
  cases r with
  | offEnd j d => exact Nat.succ_pos s.pc
  | found j =>
    obtain ⟨low, _⟩ := h
    exact show 1 ≤ (j + 1).toNat by omega

/-- An instruction of the program leaves `PC` above 0, unless it waits on its channel and changes nothing. -/
theorem exec_pc_pos_or_waits {i : Instr} (hp : s.pc < s.plen) (x : exec i s = .next t) :
    1 ≤ t.pc ∨ (t = s ∧ ((i = .out ∧ s.now.outReady = false) ∨ (i = .inp ∧ s.answer = none))) := by
  cases exec_effect x with
  | outWait _ r => exact .inr ⟨rfl, .inl ⟨rfl, r⟩⟩
  | inpWait r => exact .inr ⟨rfl, .inr ⟨rfl, r⟩⟩
  | jz => exact .inl (State.endScan_pc_pos (scanFwd_within hp))
  | jnz => exact .inl (State.endScan_pc_pos (scanBwd_within hp))
  | _ => exact .inl (Nat.succ_pos s.pc)

/-- Settles O26: the lower end is that no instruction but a waiting one leaves `PC` at 0, the upper one the range of R26. -/
theorem pcStaysInProgram : Obligations.PcStaysInProgram := by
  unfold Obligations.PcStaysInProgram
  intro i s t hp x
  exact (exec_pc_pos_or_waits hp x).imp_left fun pos => ⟨pos, (exec_regsWithin hp x).pc⟩

/-! ### The tape -/

/-- The cells are those of the tape list. -/
theorem State.cell_congr (h : t.tape = s.tape) : t.cell = s.cell := by
  funext a
  rw [State.cell, State.cell, h]

/-- An instruction leaves the tape as it is, or is one of the three that write the current cell (R46, R47). -/
theorem exec_tape {i : Instr} (x : exec i s = .next t) :
    t.tape = s.tape ∨ (i ∈ [Instr.cInc, .cDec, .inp] ∧ ∃ v, t.tape = (s.setCurrent v).tape) := by
  cases exec_effect x with
  | cInc => exact .inr ⟨by decide, _, rfl⟩
  | cDec => exact .inr ⟨by decide, _, rfl⟩
  | inpByte v => exact .inr ⟨by decide, v, rfl⟩
  | jz => exact .inl (s.endScan_tape _)
  | jnz => exact .inl (s.endScan_tape _)
  | _ => exact .inl rfl

/-- Settles O29: the tape is the one before, or the one before with the current cell written. -/
theorem onlyCurrentCellWritten : Obligations.OnlyCurrentCellWritten := by
  unfold Obligations.OnlyCurrentCellWritten
  intro i s t x
  obtain same | ⟨writes, v, written⟩ := exec_tape x
  · exact ⟨fun a _ => congrFun (State.cell_congr same) a, fun _ _ _ => same⟩
  · refine ⟨fun a ha => ?_, fun inc dec inp => absurd writes (by simp [inc, dec, inp])⟩
    rw [State.cell_congr written, State.cell_setCurrent, if_neg ha.symm]

/-! ### Outside a run -/

theorem step_of_start (n : s.state ≠ .running) (hr : s.now.rst = false) (hs : s.now.start = true) :
    step s = .next s.startRun.boundary := by
  rw [step_of_not_running hr n, State.hostStep, if_pos hs]

theorem step_of_no_start (n : s.state ≠ .running) (hr : s.now.rst = false) (hs : s.now.start = false) :
    step s = .next s.loadProg.loadPlen.boundary := by
  rw [step_of_not_running hr n, State.hostStep, if_neg (by simp [hs])]

/-- A terminal state is no state of a run (R33). -/
theorem RunState.ne_running_of_terminal {e : RunState} (h : e.terminal = true) : e ≠ .running := by
  rintro rfl
  cases h

/-- The observation is one of `STATE`, the cursors, the tape and the channel record, not of the program (R152). -/
theorem State.observe_congr (state : t.state = s.state) (pc : t.pc = s.pc) (dp : t.dp = s.dp) (tape : t.tape = s.tape)
    (outBytes : t.outBytes = s.outBytes) (inAnswers : t.inAnswers = s.inAnswers) : t.observe = s.observe := by
  unfold State.observe
  rw [state, pc, dp, State.cell_congr tape, outBytes, inAnswers]

/-- Settles O42: without `rst` and `start` only the load port acts, on nothing that is observed. -/
theorem terminalStatePersists : Obligations.TerminalStatePersists := by
  unfold Obligations.TerminalStatePersists
  intro s term hr hs
  refine ⟨_, step_of_no_start (RunState.ne_running_of_terminal term) hr hs, by simp, ?_⟩
  apply State.observe_congr <;> simp

/-- The start sequence leaves nothing of what the tape held, or of whether it was specified (R29, R30). -/
theorem State.startRun_of_tape (s : State) (tape' : Memory) (u : Option Nat) :
    ({ s with tape := tape', tapeUnknown := u } : State).startRun = s.startRun := rfl

/-- Settles O45: the step is the start sequence, which writes both fields. -/
theorem startHidesOldTape : Obligations.StartHidesOldTape := by
  unfold Obligations.StartHidesOldTape
  intro s tape' u n hr hs
  rw [step_of_start n hr hs, step_of_start (s := { s with tape := tape', tapeUnknown := u }) n hr hs,
    State.startRun_of_tape]

/-! ### The program store -/

theorem mapNext_mapNext (f g : State → State) (o : Host.Outcome State Fault Refusal) :
    mapNext f (mapNext g o) = mapNext (f ∘ g) o := by
  cases o <;> rfl

/-- The fetch at a `PC` below `PLEN` reads a byte below `PLEN` (R27, R78). -/
theorem State.fetched_withProg {m : Memory} (h : SameProgram s m) (hp : s.pc < s.plen) :
    (s.withProg m).fetched = s.fetched := congrArg decodeByte (h s.pc hp)

theorem State.latchIr_withProg {m : Memory} (h : SameProgram s m) (hp : s.pc < s.plen) :
    (s.withProg m).latchIr = s.latchIr.withProg m := by
  have e : (s.withProg m).progByte s.pc = s.progByte s.pc := h s.pc hp
  simp only [State.latchIr, State.withProg_pc, e]
  rfl

/-- Whether the instruction at `PC` waits is read of the program below `PLEN` alone: from `PLEN` on none waits. -/
theorem State.waits_withProg {m : Memory} (h : SameProgram s m) : (s.withProg m).waits = s.waits := by
  unfold State.waits
  by_cases hp : s.pc < s.plen
  · rw [State.fetched_withProg h hp]
    rfl
  · simp [hp]

theorem State.abortTaken_withProg {m : Memory} (h : SameProgram s m) : (s.withProg m).abortTaken = s.abortTaken := by
  unfold State.abortTaken
  rw [State.waits_withProg h, State.withProg_now]

/-- A step of the run reads no program byte at `PLEN` or above (R27, R48). -/
theorem runStep_withProg {m : Memory} (h : SameProgram s m) :
    runStep (s.withProg m) = mapNext (fun t => t.withProg m) (runStep s) := by
  unfold runStep
  rw [State.abortTaken_withProg h, mapNext_ite, mapNext_ite]
  refine if_congr .rfl rfl ?_
  by_cases hp : s.plen ≤ s.pc
  · rw [if_pos hp, if_pos (show (s.withProg m).plen ≤ (s.withProg m).pc from hp)]
    rfl
  · have inside : s.pc < s.plen := Nat.lt_of_not_le hp
    rw [if_neg hp, if_neg (show ¬ (s.withProg m).plen ≤ (s.withProg m).pc from hp), State.fetched_withProg h inside,
      State.latchIr_withProg h inside, exec_withProg (s := s.latchIr) _ h inside]

/-- Settles O46: the step of the run, and the boundary after it, which reads no program byte. -/
theorem bytesBeyondPlenUnread : Obligations.BytesBeyondPlenUnread := by
  unfold Obligations.BytesBeyondPlenUnread
  intro s m run hr h
  rw [step_of_running hr run, step_of_running (s := s.withProg m) hr run, runStep_withProg h, mapNext_mapNext,
    mapNext_mapNext]
  rfl

/-! ### The `STATUS` word -/

theorem State.status_low (s : State) : s.status.extractLsb' 0 3 = s.state.bits := by
  rw [State.status, BitVec.extractLsb'_append_eq_of_add_le (by decide), BitVec.extractLsb'_eq_self]

theorem State.status_bit_three (s : State) : s.status.getLsbD 3 = s.state.exitBit.getLsbD 0 := by
  rw [State.status, BitVec.getLsbD_append, if_neg (by decide), BitVec.getLsbD_append, if_pos (by decide)]

theorem State.status_high (s : State) : s.status.extractLsb' 4 4 = 0 := by
  rw [State.status, BitVec.extractLsb'_append_eq_of_le (by decide), BitVec.extractLsb'_append_eq_of_le (by decide),
    BitVec.extractLsb'_eq_self]

/-- `EXIT` is 1 in the two fault states only (R36). -/
theorem RunState.exitBit_iff (e : RunState) : e.exitBit.getLsbD 0 = true ↔ e = .faultOob ∨ e = .faultUnmatched := by
  cases e <;> decide

/-- Settles O48: each field of the word is the code it is put together from. -/
theorem statusWordFields : Obligations.StatusWordFields := by
  unfold Obligations.StatusWordFields
  intro s
  refine ⟨?_, ?_, s.status_high⟩
  · rw [s.status_low]
    cases s.state <;> rfl
  · rw [s.status_bit_three]
    exact s.state.exitBit_iff

end Sys2Proof.Machine
end

section
/-!
SUPPORT. The two stores (20_memory.md): what an instruction, a step and a cycle may write of the tape and of the program store,
which client the arbiter grants each store to, and which program bytes a cycle of a run reads.
-/
namespace Sys2Proof.Machine

variable {s t u : State} {m : Memory}

/-! ### What an instruction leaves of the matcher's registers -/

/-- Only the jumps write `SCAN_J` and `DEPTH` (R107). -/
theorem exec_scanRegs {i : Instr} (x : exec i s = .next t) (notJz : i ≠ .jz) (notJnz : i ≠ .jnz) :
    t.scanJ = s.scanJ ∧ t.depth = s.depth := by
  cases exec_effect x with
  | jz => exact absurd rfl notJz
  | jnz => exact absurd rfl notJnz
  | _ => exact ⟨rfl, rfl⟩

/-- Settles O30: the frame every instruction keeps, and the registers that only a scan writes. -/
theorem programNeverWritten : Obligations.ProgramNeverWritten := by
  unfold Obligations.ProgramNeverWritten
  exact fun _ _ _ x => ⟨exec_sameFixed x, exec_scanRegs x⟩

/-! ### The load port -/

/-- The program length after the load port's step (R49). -/
theorem State.load_plen (s : State) : s.loadProg.loadPlen.plen =
    if s.now.plenWe = true ∧ s.now.plenWdata ≤ Config.progMax then s.now.plenWdata else s.plen := by
  rw [State.load_eq]

/-- The program store after the load port's step (R49). -/
theorem State.load_prog (s : State) : s.loadProg.loadPlen.prog =
    if s.now.progWe = true ∧ s.now.progWaddr < Config.progMax then
      s.prog.store none s.now.progWaddr s.now.progWdata else s.prog := by
  rw [State.load_eq]

/-- What a program byte reads as after the load port's step (R48, R49). -/
theorem State.load_progByte (s : State) (i : Nat) : s.loadProg.loadPlen.progByte i =
    if s.now.progWe = true ∧ s.now.progWaddr < Config.progMax ∧ i = s.now.progWaddr then s.now.progWdata
    else s.progByte i := by
  rw [State.progByte, State.load_prog]
  by_cases accepted : s.now.progWe = true ∧ s.now.progWaddr < Config.progMax
  · rw [if_pos accepted]
    exact (s.progByte_setProg _ i _).trans (if_congr (by simp [accepted, eq_comm]) rfl rfl)
  · rw [if_neg accepted, if_neg fun ⟨we, low, _⟩ => accepted ⟨we, low⟩]
    rfl

/-- A step of a run without `rst` writes neither the program store nor `PLEN` (R49, R63). -/
theorem step_keeps_program (hr : s.now.rst = false) (run : s.state = .running) (x : step s = .next t) :
    t.prog = s.prog ∧ t.plen = s.plen := by
  obtain ⟨u, hu, rfl⟩ := step_effect x
  cases hu with
  | reset h => simp [hr] at h
  | start _ n => exact absurd run n
  | load _ n => exact absurd run n
  | abort => exact ⟨rfl, rfl⟩
  | done => exact ⟨rfl, rfl⟩
  | exec _ _ _ _ x => exact ⟨(exec_sameFixed x).prog, (exec_sameFixed x).plen⟩

/-- Settles O37: outside a run the step is the load port's or the start sequence, in a run it writes no program. -/
theorem loadPortWrites : Obligations.LoadPortWrites := by
  unfold Obligations.LoadPortWrites
  intro s hr
  refine ⟨fun n hs => ⟨_, step_of_no_start n hr hs, s.load_plen, s.load_progByte, ?_⟩,
    fun n hs => ⟨_, step_of_start n hr hs, rfl, rfl⟩, fun run t => step_keeps_program hr run⟩
  simp

/-! ### The launch premise -/

theorem LaunchReady.congr (h : LaunchReady s) (prog : t.prog = s.prog) (plen : t.plen = s.plen) : LaunchReady t := by
  unfold LaunchReady
  rwa [prog, plen]

/-- A byte written stays written, whatever is stored over it or beside it (R50). -/
theorem Memory.isSome_lookup_store {a i : Nat} {v : Byte} (h : (m.lookup i).isSome) :
    ((m.store none a v).lookup i).isSome := by
  rw [Memory.lookup_store_none]
  split
  · rfl
  · exact h

/-- The load port's step keeps the premise when it writes no `PLEN`. -/
theorem LaunchReady.load (h : LaunchReady s) (noPlen : s.now.plenWe = false) : LaunchReady s.loadProg.loadPlen := by
  intro i hi
  have hi : i < s.plen := by simpa [State.load_plen, noPlen] using hi
  rw [State.load_prog]
  split
  · exact Memory.isSome_lookup_store (h i hi)
  · exact h i hi

/-- Settles O47: `rst` leaves no byte below `PLEN`, a run writes no program, and outside one only the load port does. -/
theorem launchPremiseIsKept : Obligations.LaunchPremiseIsKept := by
  unfold Obligations.LaunchPremiseIsKept
  intro s t ready noPlen x
  obtain ⟨u, hu, rfl⟩ := step_effect x
  cases hu with
  | reset => exact fun i hi => absurd hi (Nat.not_lt_zero i)
  | start => exact ready.congr rfl rfl
  | load _ n g =>
    have off : s.now.plenWe = false := by simpa [g] using noPlen n
    exact (ready.load off).congr rfl rfl
  | abort => exact ready.congr rfl rfl
  | done => exact ready.congr rfl rfl
  | exec _ _ _ _ x => exact ready.congr (exec_sameFixed x).prog (exec_sameFixed x).plen

/-! ### The host's tape port -/

/-- Outside a run the port shows 0 at an address of `L` or above (R54). -/
theorem State.tapeRdata_beyond (n : s.state ≠ .running) (ha : Config.tapeLen ≤ s.now.tapeRaddr.toNat) :
    s.tapeRdata = 0 := by
  rw [State.tapeRdata, if_neg n, if_pos ha]

/-- Outside a run the port shows the cell below `L`, once a start has cleared the tape (R30, R54). -/
theorem State.tapeRdata_cell (n : s.state ≠ .running) (ha : s.now.tapeRaddr.toNat < Config.tapeLen)
    (known : s.tapeUnknown = none) : s.tapeRdata = s.cell s.now.tapeRaddr.toNat := by
  rw [State.tapeRdata, if_neg n, if_neg (Nat.not_le_of_lt ha), known]

/-- Settles O49: the port's two branches outside a run. -/
theorem tapeReadPort : Obligations.TapeReadPort := by
  unfold Obligations.TapeReadPort
  exact fun s n => ⟨State.tapeRdata_beyond n, State.tapeRdata_cell n⟩

/-! ### Every step answers a next state -/

/-- With `DP < L`, a step of a run answers a next state, be it the abort, DONE or an instruction. -/
theorem runStep_total (hd : s.dp.toNat < Config.tapeLen) : ∃ t, runStep s = .next t := by
  unfold runStep
  split
  · exact ⟨_, rfl⟩
  · split
    · exact ⟨_, rfl⟩
    · exact exec_total _ hd

/-- With `DP < L`, a step answers a next state whatever the inputs. -/
theorem step_total (hd : s.dp.toNat < Config.tapeLen) : ∃ t, step s = .next t := by
  cases hr : s.now.rst with
  | true => exact ⟨_, step_of_rst hr⟩
  | false =>
    by_cases run : s.state = .running
    · obtain ⟨u, hu⟩ := runStep_total hd
      exact ⟨_, (step_of_running hr run).trans (congrArg (mapNext State.boundary) hu)⟩
    · exact ⟨_, step_of_not_running hr run⟩

/-- Settles O53: the invariant keeps `DP` below `L` (R23), and no other access could stop the model. -/
theorem stepNeverStops : Obligations.StepNeverStops := by
  unfold Obligations.StepNeverStops
  exact fun _ h => step_total h.stores.dpIn

/-! ### The arbiter's grants (R52) -/

theorem State.tapeOwner_eq_hostRead_iff : s.tapeOwner = .hostRead ↔ s.state ≠ .running := by
  unfold State.tapeOwner
  by_cases run : s.state = .running <;> by_cases p : s.phase = .clear <;> simp [run, p]

theorem State.tapeOwner_eq_startClear_iff :
    s.tapeOwner = .startClear ↔ s.state = .running ∧ s.phase = .clear := by
  unfold State.tapeOwner
  by_cases run : s.state = .running <;> by_cases p : s.phase = .clear <;> simp [run, p]

theorem State.tapeOwner_eq_execute_iff :
    s.tapeOwner = .execute ↔ s.state = .running ∧ s.phase ≠ .clear := by
  unfold State.tapeOwner
  by_cases run : s.state = .running <;> by_cases p : s.phase = .clear <;> simp [run, p]

theorem State.progOwner_of_not_running (n : s.state ≠ .running) : s.progOwner = some .loadPort := if_pos n

theorem State.progOwner_of_running (run : s.state = .running) : s.progOwner =
    if s.phase = .fetch then some .fetch else if s.phase = .scanF ∨ s.phase = .scanB then some .matcher else none :=
  if_neg (not_not_intro run)

theorem State.progOwner_fetch (run : s.state = .running) (p : s.phase = .fetch) : s.progOwner = some .fetch := by
  rw [State.progOwner_of_running run, if_pos p]

theorem State.progOwner_matcher (run : s.state = .running) (p : s.phase = .scanF ∨ s.phase = .scanB) :
    s.progOwner = some .matcher := by
  rw [State.progOwner_of_running run, if_neg (by rcases p with p | p <;> simp [p]), if_pos p]

/-- The phases of a run in which neither the fetch nor the matcher owns the program store (assumption 13). -/
theorem State.progOwner_none (run : s.state = .running) (p : s.phase ∈ [Phase.clear, .exec, .waitOut, .waitIn]) :
    s.progOwner = none := by
  rw [State.progOwner_of_running run]
  simp only [List.mem_cons, List.not_mem_nil, or_false] at p
  rcases p with p | p | p | p <;> simp [p]

/-! ### What a cycle writes of the tape -/

/-- What a cycle does to the tape: nothing, the start clear's write of one cell, or an instruction's write of the current
cell. -/
inductive TapeEffect (s u : State) : Prop where
  | kept (notCleared : s.now.rst = true ∨ s.phase ≠ .clear) (tape : u.tape = s.tape)
  | cleared (h : s.now.rst = false) (p : s.phase = .clear) (tape : u.tape = (s.setCell s.clrA.toNat 0).tape)
  | wrote (h : s.now.rst = false) (p : s.phase = .exec ∨ s.phase = .waitIn) (v : Byte)
      (tape : u.tape = (s.setCurrent v).tape)

/-- The three instructions that write the tape commit in EXEC or WAIT_IN. -/
theorem CommitsIn.phase_of_writer {i : Instr} (c : CommitsIn s i) (w : i ∈ [Instr.cInc, .cDec, .inp]) :
    s.phase = .exec ∨ s.phase = .waitIn := by
  simp only [List.mem_cons, List.not_mem_nil, or_false] at w
  rcases w with rfl | rfl | rfl
  · exact .inl c
  · exact .inl c
  · exact .inr c.1

theorem cycleHalt_tape : (cycleHalt s).tape = s.tape := by
  unfold cycleHalt
  split
  · rfl
  · split
    · rfl
    · simp

theorem cycleFetch_frame : (cycleFetch s).tape = s.tape ∧ (cycleFetch s).prog = s.prog := by
  unfold cycleFetch
  split <;> exact ⟨rfl, rfl⟩

theorem cycleJump_frame (taken : Bool) (scan : Phase) (first : Int) :
    (cycleJump s taken scan first).tape = s.tape ∧ (cycleJump s taken scan first).prog = s.prog := by
  cases taken <;> exact ⟨rfl, rfl⟩

theorem cycleScan_frame (r : ScanStep) : (cycleScan s r).tape = s.tape ∧ (cycleScan s r).prog = s.prog := by
  cases r <;> exact ⟨rfl, rfl⟩

/-- Every cycle does one of the three things to the tape. -/
theorem CycleEffect.tapeEffect (x : CycleEffect s u) : TapeEffect s u := by
  cases x with
  | reset h => exact .kept (.inl h) rfl
  | halt _ p => exact .kept (.inr (by simp [p])) cycleHalt_tape
  | clear h p => exact .cleared h p rfl
  | clearLast h p => exact .cleared h p rfl
  | abort _ _ q => exact .kept (.inr q) rfl
  | fetch _ _ p => exact .kept (.inr (by simp [p])) cycleFetch_frame.1
  | toWaitOut _ _ p => exact .kept (.inr (by simp [p])) rfl
  | toWaitIn _ _ p => exact .kept (.inr (by simp [p])) rfl
  | jz _ _ p => exact .kept (.inr (by simp [p])) (cycleJump_frame _ _ _).1
  | jnz _ _ p => exact .kept (.inr (by simp [p])) (cycleJump_frame _ _ _).1
  | commit h _ c x =>
    obtain same | ⟨w, v, e⟩ := exec_tape x
    · exact .kept (.inr fun p => by simpa [p] using c.inside) same
    · exact .wrote h (c.phase_of_writer w) v e
  | scanF _ _ p => exact .kept (.inr (by simp [p])) (cycleScan_frame _).1
  | scanB _ _ p => exact .kept (.inr (by simp [p])) (cycleScan_frame _).1
  | waitOut _ _ p => exact .kept (.inr (by simp [p])) rfl
  | waitIn _ _ p => exact .kept (.inr (by simp [p])) rfl

/-- Under `rst` the tape is unchanged (R142). -/
theorem TapeEffect.of_rst (x : TapeEffect s u) (h : s.now.rst = true) : u.tape = s.tape := by
  cases x with
  | kept _ same => exact same
  | cleared h' => simp [h] at h'
  | wrote h' => simp [h] at h'

/-- In HALT the tape is unchanged. -/
theorem TapeEffect.of_halt (x : TapeEffect s u) (p : s.phase = .halt) : u.tape = s.tape := by
  cases x with
  | kept _ same => exact same
  | cleared _ p' => simp [p] at p'
  | wrote _ p' => simp [p] at p'

/-- In CLEAR, without `rst`, the cell at `CLR_A` becomes 0 and no other changes (R85). -/
theorem TapeEffect.of_clear (x : TapeEffect s u) (p : s.phase = .clear) (h : s.now.rst = false) :
    u.cell s.clrA.toNat = 0 ∧ ∀ a, a ≠ s.clrA.toNat → u.cell a = s.cell a := by
  cases x with
  | kept notCleared => simp [h, p] at notCleared
  | cleared _ _ e =>
    rw [State.cell_congr e]
    exact ⟨by rw [State.cell_setCell, if_pos rfl], fun a ha => by rw [State.cell_setCell, if_neg ha.symm]⟩
  | wrote _ p' => simp [p] at p'

/-- Outside CLEAR no cell but the current one changes, and that one in EXEC or WAIT_IN only (R52). -/
theorem TapeEffect.of_not_clear (x : TapeEffect s u) (p : s.phase ≠ .clear) :
    (∀ a, a ≠ s.dp.toNat → u.cell a = s.cell a) ∧ (u.tape ≠ s.tape → s.phase = .exec ∨ s.phase = .waitIn) := by
  cases x with
  | kept _ same => exact ⟨fun a _ => congrFun (State.cell_congr same) a, fun changed => absurd same changed⟩
  | cleared _ p' => exact absurd p' p
  | wrote _ p' v e =>
    rw [State.cell_congr e]
    exact ⟨fun a ha => by rw [State.cell_setCurrent, if_neg ha.symm], fun _ => p'⟩

/-! ### What a cycle writes of the program store -/

/-- In HALT the program store changes outside a run only, by the load port's accepted write (R49). -/
theorem cycleHalt_prog (changed : (cycleHalt s).prog ≠ s.prog) :
    s.state ≠ .running ∧ s.now.progWe = true ∧
      (cycleHalt s).prog = s.prog.store none s.now.progWaddr s.now.progWdata := by
  unfold cycleHalt at changed ⊢
  split at changed
  · exact absurd rfl changed
  · split at changed
    · exact absurd rfl changed
    · rename_i n g
      rw [State.load_prog] at changed
      have accepted := (ite_ne_right_iff.1 changed).1
      rw [if_neg n, if_neg g, State.load_prog, if_pos accepted]
      exact ⟨n, accepted.1, rfl⟩

/-- A cycle that changes the program store is one of the load port outside a run. -/
theorem CycleEffect.prog (x : CycleEffect s u) (changed : u.prog ≠ s.prog) :
    s.state ≠ .running ∧ s.now.progWe = true ∧ u.prog = s.prog.store none s.now.progWaddr s.now.progWdata := by
  cases x with
  | halt => exact cycleHalt_prog changed
  | fetch => exact absurd cycleFetch_frame.2 changed
  | jz => exact absurd (cycleJump_frame _ _ _).2 changed
  | jnz => exact absurd (cycleJump_frame _ _ _).2 changed
  | commit _ _ _ x => exact absurd (exec_sameFixed x).prog changed
  | scanF => exact absurd (cycleScan_frame _).2 changed
  | scanB => exact absurd (cycleScan_frame _).2 changed
  | _ => exact absurd rfl changed

/-- Settles O59: the grants from `STATE` and `PHASE`, the writes from the one thing a cycle does to each store. -/
theorem arbiterGrantsWrites : Obligations.ArbiterGrantsWrites := by
  unfold Obligations.ArbiterGrantsWrites
  intro s halted
  have running : s.phase ≠ .halt → s.state = .running := fun p => not_not.1 fun n => p (halted.2 n)
  refine ⟨fun r p => State.tapeOwner_eq_startClear_iff.2 ⟨r, p⟩, fun r p => State.tapeOwner_eq_execute_iff.2 ⟨r, p⟩,
    State.tapeOwner_eq_hostRead_iff.2, fun p => State.progOwner_fetch (running (by simp [p])) p,
    fun p => State.progOwner_matcher (running (by rcases p with p | p <;> simp [p])) p,
    State.progOwner_of_not_running,
    fun p => State.progOwner_none (running fun e => by simp [e] at p) p, fun t x => ?_⟩
  obtain ⟨u, hu, rfl⟩ := cycle_effect x
  have tape := hu.tapeEffect
  refine ⟨fun o => tape.of_halt (halted.2 (State.tapeOwner_eq_hostRead_iff.1 o)),
    fun o => tape.of_clear (State.tapeOwner_eq_startClear_iff.1 o).2,
    fun o => tape.of_not_clear (State.tapeOwner_eq_execute_iff.1 o).2, tape.of_rst, fun changed => ?_⟩
  obtain ⟨n, we, e⟩ := hu.prog changed
  exact ⟨State.progOwner_of_not_running n, we, e⟩

/-! ### What a cycle of a run reads of the program store -/

/-- An instruction other than the jumps reads no program byte. -/
theorem exec_withProg_of_not_jump {i : Instr} (notJz : i ≠ .jz) (notJnz : i ≠ .jnz) :
    exec i (s.withProg m) = mapNext (fun t => t.withProg m) (exec i s) := by
  cases i with
  | jz => exact absurd rfl notJz
  | jnz => exact absurd rfl notJnz
  | nop b => rfl
  | inp =>
    simp only [exec, execIn, State.withProg_answer]
    cases s.answer with
    | none => rfl
    | some a =>
      cases a with
      | eof => rfl
      | byte v => simp only [State.atCell, mapNext_ite]; rfl
  | _ =>
    simp only [exec, execDpInc, execDpDec, execCInc, execCDec, execOut, State.onCell, State.atCell, mapNext_ite]
    rfl

theorem commit_withProg_of_not_jump {i : Instr} (notJz : i ≠ .jz) (notJnz : i ≠ .jnz) :
    commit (exec i (s.withProg m)) = mapNext (fun t => t.withProg m) (commit (exec i s)) := by
  rw [exec_withProg_of_not_jump notJz notJnz, commit, commit, mapNext_mapNext, mapNext_mapNext]
  rfl

theorem cycleRun_withProg {k k' : Host.Outcome State Fault Refusal} (h : k' = mapNext (fun t => t.withProg m) k) :
    cycleRun (s.withProg m) k' = mapNext (fun t => t.withProg m) (cycleRun s k) := by
  rw [cycleRun, cycleRun, mapNext_ite, h]
  rfl

/-- The fetch reads the byte at `PC` and no other (R52, R78). -/
theorem cycleFetch_withProg (same : (s.withProg m).progByte s.pc = s.progByte s.pc) :
    cycleFetch (s.withProg m) = (cycleFetch s).withProg m := by
  have latch : (s.withProg m).latchIr = s.latchIr.withProg m := by
    simp only [State.latchIr, State.withProg_pc, same]
    rfl
  rw [cycleFetch, cycleFetch, apply_ite (fun t : State => t.withProg m), latch]
  rfl

theorem cycleJump_withProg (taken : Bool) (scan : Phase) (first : Int) :
    cycleJump (s.withProg m) taken scan first = (cycleJump s taken scan first).withProg m := by
  cases taken <;> rfl

/-- The execute stage reads no program byte: `IR` holds the instruction, and a jump only enters its scan. -/
theorem cycleExec_withProg : cycleExec (s.withProg m) = mapNext (fun t => t.withProg m) (cycleExec s) := by
  unfold cycleExec
  rw [State.withProg_ir]
  cases decodeByte s.ir with
  | out => rfl
  | inp => rfl
  | jz => simp only [State.onCell, State.atCell, mapNext_ite, cycleJump_withProg]; rfl
  | jnz => simp only [State.onCell, State.atCell, mapNext_ite, cycleJump_withProg]; rfl
  | _ => exact commit_withProg_of_not_jump (by simp) (by simp)

theorem cycleScan_withProg (r : ScanStep) : cycleScan (s.withProg m) r = (cycleScan s r).withProg m := by
  cases r <;> rfl

/-- One pass of the forward scan reads the byte at its index and no other (R105). -/
theorem scanFwdStep_withProg {j : Int} (d : Nat) (same : (s.withProg m).progByte j.toNat = s.progByte j.toNat) :
    scanFwdStep (s.withProg m) j d = scanFwdStep s j d := by
  rw [scanFwdStep, scanFwdStep, same, State.withProg_plen]

/-- One pass of the backward scan reads the byte at its index and no other (R106). -/
theorem scanBwdStep_withProg {j : Int} (d : Nat) (same : (s.withProg m).progByte j.toNat = s.progByte j.toNat) :
    scanBwdStep (s.withProg m) j d = scanBwdStep s j d := by
  rw [scanBwdStep, scanBwdStep, same]

theorem cycleClear_withProg : cycleClear (s.withProg m) = mapNext (fun t => t.withProg m) (cycleClear s) := by
  simp only [cycleClear, mapNext_ite]
  rfl

theorem cycleWaitOut_withProg : cycleWaitOut (s.withProg m) = mapNext (fun t => t.withProg m) (cycleWaitOut s) := by
  rw [cycleWaitOut, cycleWaitOut, mapNext_ite, commit_withProg_of_not_jump (by decide) (by decide)]
  rfl

theorem cycleWaitIn_withProg : cycleWaitIn (s.withProg m) = mapNext (fun t => t.withProg m) (cycleWaitIn s) := by
  rw [cycleWaitIn, cycleWaitIn, mapNext_ite, commit_withProg_of_not_jump (by decide) (by decide)]
  rfl

/-- Each phase of a run reads the program byte of the store's owner and no other. -/
theorem cyclePhase_withProg (run : s.state = .running)
    (fetch : s.progOwner = some .fetch → (s.withProg m).progByte s.pc = s.progByte s.pc)
    (matcher : s.progOwner = some .matcher →
      (s.withProg m).progByte s.scanJ.toNat = s.progByte s.scanJ.toNat) :
    cyclePhase (s.withProg m) = mapNext (fun t => t.withProg m) (cyclePhase s) := by
  unfold cyclePhase
  rw [State.withProg_phase]
  cases p : s.phase with
  | halt =>
    rw [show cycleHalt s = s from if_pos run, show cycleHalt (s.withProg m) = s.withProg m from if_pos run]
    rfl
  | clear => exact cycleClear_withProg
  | fetch =>
    refine cycleRun_withProg ?_
    rw [cycleFetch_withProg (fetch (State.progOwner_fetch run p))]
    rfl
  | exec => exact cycleRun_withProg cycleExec_withProg
  | scanF =>
    refine cycleRun_withProg ?_
    rw [State.withProg_scanJ, State.withProg_depth,
      scanFwdStep_withProg _ (matcher (State.progOwner_matcher run (.inl p))), cycleScan_withProg]
    rfl
  | scanB =>
    refine cycleRun_withProg ?_
    rw [State.withProg_scanJ, State.withProg_depth,
      scanBwdStep_withProg _ (matcher (State.progOwner_matcher run (.inr p))), cycleScan_withProg]
    rfl
  | waitOut => exact cycleRun_withProg cycleWaitOut_withProg
  | waitIn => exact cycleRun_withProg cycleWaitIn_withProg

theorem cycle_of_no_rst (hr : s.now.rst = false) : cycle s = mapNext State.tickOver (cyclePhase s) := by
  rw [cycle, if_neg (by simp [hr])]

/-- Settles O60: `rst` reads no program byte, and without it each phase reads only what its owner is granted. -/
theorem programReadsFollowArbiter : Obligations.ProgramReadsFollowArbiter := by
  unfold Obligations.ProgramReadsFollowArbiter
  intro s m run fetch matcher
  cases hr : s.now.rst with
  | true =>
    rw [cycle_of_rst hr, cycle_of_rst (s := s.withProg m) hr]
    rfl
  | false =>
    rw [cycle_of_no_rst hr, cycle_of_no_rst (s := s.withProg m) hr, cyclePhase_withProg run fetch matcher,
      mapNext_mapNext, mapNext_mapNext]
    rfl

end Sys2Proof.Machine
end

section
/-!
The decoder and the encoder as inverse maps (R65 to R70). Both directions turn on one fact: exactly the bytes outside
`opcodeBytes` decode to a `NOP` of themselves (`decodeByte_eq_nop_iff`).
-/
namespace Sys2Proof

theorem Instr.wellFormed_nop {b : Byte} : (Instr.nop b).wellFormed = true ↔ b ∉ opcodeBytes := by
  simp [Instr.wellFormed]

theorem oneByte_statement : ∀ i : Instr, Laws.OneByte.Statement i
  | .dpInc => Laws.OneByte.dpInc
  | .dpDec => Laws.OneByte.dpDec
  | .cInc => Laws.OneByte.cInc
  | .cDec => Laws.OneByte.cDec
  | .out => Laws.OneByte.out
  | .inp => Laws.OneByte.inp
  | .jz => Laws.OneByte.jz
  | .jnz => Laws.OneByte.jnz
  | .nop b => Laws.OneByte.nop b

theorem decodeByte_encodeByte {i : Instr} (h : i.wellFormed = true) : decodeByte (encodeByte i) = i := by
  obtain ⟨-, decodes⟩ := oneByte_statement i
  exact List.singleton_inj.mp (decodes h)

/-- The opcode bytes are checked one by one. -/
theorem decodeByte_of_mem_opcodeBytes : ∀ b ∈ opcodeBytes,
    (decodeByte b).wellFormed = true ∧ encodeByte (decodeByte b) = b ∧ decodeByte b ≠ .nop b := by
  decide

theorem decodeByte_of_not_mem_opcodeBytes {b : Byte} (h : b ∉ opcodeBytes) : decodeByte b = .nop b :=
  decodeByte_encodeByte (Instr.wellFormed_nop.mpr h)

theorem decodeByte_eq_nop_iff {b : Byte} : decodeByte b = .nop b ↔ b ∉ opcodeBytes := by
  refine ⟨fun nop mem => ?_, decodeByte_of_not_mem_opcodeBytes⟩
  obtain ⟨-, -, notNop⟩ := decodeByte_of_mem_opcodeBytes b mem
  exact notNop nop

theorem wellFormed_decodeByte (b : Byte) : (decodeByte b).wellFormed = true := by
  by_cases mem : b ∈ opcodeBytes
  · exact (decodeByte_of_mem_opcodeBytes b mem).left
  · rw [decodeByte_of_not_mem_opcodeBytes mem]
    exact Instr.wellFormed_nop.mpr mem

theorem encodeByte_decodeByte (b : Byte) : encodeByte (decodeByte b) = b := by
  by_cases mem : b ∈ opcodeBytes
  · obtain ⟨-, same, -⟩ := decodeByte_of_mem_opcodeBytes b mem
    exact same
  · rw [decodeByte_of_not_mem_opcodeBytes mem, encodeByte]

/-- The gaps between the opcode bytes are the six ranges of R68. -/
theorem not_mem_opcodeBytes_iff_ranges {b : Byte} : b ∉ opcodeBytes ↔
    b ≤ 0x2A ∨ (0x2F ≤ b ∧ b ≤ 0x3B) ∨ b = 0x3D ∨ (0x3F ≤ b ∧ b ≤ 0x5A) ∨ b = 0x5C ∨ 0x5E ≤ b := by
  simp only [opcodeBytes, List.mem_cons, List.not_mem_nil, or_false]
  bv_omega

theorem countP_not_mem_opcodeBytes :
    (List.range 256).countP (fun n => BitVec.ofNat 8 n ∉ opcodeBytes) = 248 := by
  decide +kernel

/-- Settles O4: the encoding is one byte, which decodes to the instruction. -/
theorem decodeOfEncode : Obligations.DecodeOfEncode := by
  unfold Obligations.DecodeOfEncode
  intro i rest wf
  rw [encode, List.singleton_append, decode, decodeByte_encodeByte wf]

/-- Settles O3: the instruction is `decodeByte b`. -/
theorem everyByteDecodes : Obligations.EveryByteDecodes := by
  unfold Obligations.EveryByteDecodes
  intro b rest
  refine ⟨decodeByte b, rfl, wellFormed_decodeByte b, ?_⟩
  rw [encode, encodeByte_decodeByte]

/-- Settles O1: eight rows of the map, and every byte outside them is a `NOP`. -/
theorem opcodeBytesDecode : Obligations.OpcodeBytesDecode := by
  unfold Obligations.OpcodeBytesDecode
  refine ⟨rfl, rfl, rfl, rfl, rfl, rfl, rfl, rfl, fun b notNop => ?_⟩
  by_contra notMem
  exact notNop (decodeByte_of_not_mem_opcodeBytes notMem)

/-- Settles O2: the bytes that decode to `NOP` are those outside `opcodeBytes`, which are the six ranges' 248. -/
theorem nopBytesDecode : Obligations.NopBytesDecode := by
  unfold Obligations.NopBytesDecode
  refine ⟨fun b => decodeByte_eq_nop_iff.trans not_mem_opcodeBytes_iff_ranges, ?_⟩
  simp only [decodeByte_eq_nop_iff, countP_not_mem_opcodeBytes]

end Sys2Proof
end

section
/-!
SUPPORT. The fetch engine (40_fetch_engine.md), one step at a time: which step a run takes, what a wait, the end of the program and
`start` leave, and with what cause a run ends.
-/
namespace Sys2Proof.Machine

variable {s t : State} {i : Instr}

/-! ### Which step a run takes (R75 to R79) -/

theorem State.abortTaken_of_no_abort (ha : s.now.abort = false) : s.abortTaken = false := by
  simp [State.abortTaken, ha]

/-- The DONE step (R77). -/
theorem step_of_end (run : s.state = .running) (hr : s.now.rst = false) (ha : s.abortTaken = false)
    (hp : s.plen ≤ s.pc) : step s = .next (s.haltRun .done).boundary := by
  rw [step_of_running hr run, runStep, if_neg (by simp [ha]), if_pos hp]
  rfl

/-- The step of an instruction (R76, R78, R79). -/
theorem step_of_fetched (run : s.state = .running) (hr : s.now.rst = false) (ha : s.abortTaken = false)
    (hp : s.pc < s.plen) : step s = mapNext State.boundary (exec s.fetched s.latchIr) := by
  rw [step_of_running hr run, runStep, if_neg (by simp [ha]), if_neg (Nat.not_le_of_lt hp)]

/-- Settles O5: the fetched instruction is the one the byte decodes to. -/
theorem stepRunsDecoded : Obligations.StepRunsDecoded := by
  unfold Obligations.StepRunsDecoded
  intro s i run hr ha hp _ hdec
  have fetched : s.fetched = i := by
    simp only [decode, Except.ok.injEq, Prod.mk.injEq, and_true] at hdec
    exact hdec
  rw [step_of_fetched run hr ha hp, fetched]

/-! ### What an update leaves of the architectural state -/

theorem SameArch.latchIr (s : State) : SameArch s s.latchIr := ⟨rfl, rfl, rfl, rfl, rfl, rfl, rfl, rfl⟩

theorem SameArch.toPhase (s : State) (p : Phase) : SameArch s (s.toPhase p) := ⟨rfl, rfl, rfl, rfl, rfl, rfl, rfl, rfl⟩

theorem SameArch.enterScan (s : State) (p : Phase) (j : Int) : SameArch s (s.enterScan p j) :=
  ⟨rfl, rfl, rfl, rfl, rfl, rfl, rfl, rfl⟩

theorem SameArch.tickOver (s : State) : SameArch s s.tickOver := ⟨rfl, rfl, rfl, rfl, rfl, rfl, rfl, rfl⟩

theorem SameArch.rephase (s : State) : SameArch s s.rephase := ⟨rfl, rfl, rfl, rfl, rfl, rfl, rfl, rfl⟩

theorem SameArch.boundary (s : State) : SameArch s s.boundary := ⟨rfl, rfl, rfl, rfl, rfl, rfl, rfl, rfl⟩

theorem SameArch.haltRun (s : State) (e : RunState) : SameArch { s with state := e } (s.haltRun e) :=
  ⟨rfl, rfl, rfl, rfl, rfl, rfl, rfl, rfl⟩

theorem SameArch.symm (h : SameArch s t) : SameArch t s :=
  ⟨h.tape.symm, h.dp.symm, h.pc.symm, h.prog.symm, h.plen.symm, h.state.symm, h.outBytes.symm, h.inAnswers.symm⟩

/-- Settles O38: the DONE step writes `STATE` and `PHASE` alone. -/
theorem doneAtEndOfProgram : Obligations.DoneAtEndOfProgram := by
  unfold Obligations.DoneAtEndOfProgram
  intro s run hr ha hp
  exact ⟨_, step_of_end run hr (State.abortTaken_of_no_abort ha) hp, (SameArch.haltRun s .done).trans (.boundary _)⟩

/-! ### Waiting on a channel (R82, R140) -/

theorem exec_out_waits (hd : s.dp.toNat < Config.tapeLen) (r : s.now.outReady = false) : exec .out s = .next s := by
  rw [exec, execOut, State.onCell_of_lt hd, if_neg (by simp [r])]

theorem exec_inp_waits (r : s.answer = none) : exec .inp s = .next s := by
  rw [exec, execIn, r]

/-- Settles O16: either channel instruction, waiting, answers the state it found. -/
theorem waitChangesNothing : Obligations.WaitChangesNothing := by
  unfold Obligations.WaitChangesNothing
  intro s run hr ha hd hp waits
  have still : exec s.fetched s.latchIr = .next s.latchIr := by
    rcases waits with ⟨byte, busy⟩ | ⟨byte, silent⟩
    · rw [State.fetched, byte]
      exact exec_out_waits (s := s.latchIr) hd busy
    · rw [State.fetched, byte]
      exact exec_inp_waits (s := s.latchIr) silent
  refine ⟨s.latchIr.boundary, ?_, (SameArch.latchIr s).trans (.boundary _)⟩
  rw [step_of_fetched run hr (State.abortTaken_of_no_abort ha) hp, still]
  rfl

/-- Settles O27: the two waits change nothing, and every other effect but a jump's retires. -/
theorem pcAdvancesByOne : Obligations.PcAdvancesByOne := by
  unfold Obligations.PcAdvancesByOne
  intro i s t x notJz notJnz
  cases exec_effect x with
  | outWait _ r => exact .inr ⟨rfl, .inl ⟨rfl, r⟩⟩
  | inpWait r => exact .inr ⟨rfl, .inr ⟨rfl, r⟩⟩
  | jz => exact absurd rfl notJz
  | jnz => exact absurd rfl notJnz
  | _ => exact .inl rfl

/-! ### `start` (R74, R145) -/

/-- A host that drives the same `rst`, `abort`, race outcome, `out_ready` and answer now, and the same inputs later, has the
same step of a run (R148). -/
theorem step_withScript {l : List HostInput} (run : s.state = .running) (later : l.tail = s.script.tail)
    (rst : (s.withScript l).now.rst = s.now.rst) (abort : (s.withScript l).now.abort = s.now.abort)
    (stepFirst : (s.withScript l).now.stepFirst = s.now.stepFirst)
    (outReady : (s.withScript l).now.outReady = s.now.outReady) (answer : (s.withScript l).answer = s.answer) :
    step (s.withScript l) = step s := by
  have abortTaken : (s.withScript l).abortTaken = s.abortTaken := by
    rw [State.abortTaken, State.abortTaken, abort, stepFirst, State.waits_withScript l outReady answer]
  have past : ∀ t : State, (t.withScript l).boundary = (t.withScript s.script).boundary := fun t =>
    congrArg (fun r : List HostInput => { t.boundary with script := r }) later
  have old : runStep s = mapNext (fun t => t.withScript s.script) (runStep s) :=
    runStep_withScript s.script rfl rfl rfl
  cases hr : s.now.rst with
  | true =>
    rw [step_of_rst hr, step_of_rst (s := s.withScript l) (rst.trans hr)]
    exact congrArg _ (past s.resetBlock)
  | false =>
    rw [step_of_running hr run, step_of_running (s := s.withScript l) (rst.trans hr) run,
      runStep_withScript l abortTaken outReady answer, old, mapNext_mapNext, mapNext_mapNext, mapNext_mapNext]
    exact congrArg (mapNext · (runStep s)) (funext past)

/-- Settles O35: outside a run the step is the start sequence; a run does not look at `start`. -/
theorem startBeginsRun : Obligations.StartBeginsRun := by
  unfold Obligations.StartBeginsRun
  refine ⟨fun s hr hs n => ⟨_, step_of_start n hr hs, rfl, fun _ => rfl, rfl, rfl, rfl, rfl⟩, ?_⟩
  intro s h rest run _
  exact step_withScript (s := s.withScript ({ h with start := false } :: rest)) run rfl rfl rfl rfl rfl rfl

/-! ### How a run ends (R84) -/

/-- An instruction leaves `STATE` as it is, or is one of those that raise a fault, in that fault's state (R119). -/
theorem exec_state_cause (x : exec i s = .next t) :
    t.state = s.state ∨ (t.state = .faultOob ∧ (i = .dpInc ∨ i = .dpDec)) ∨
      (t.state = .faultUnmatched ∧ (i = .jz ∨ i = .jnz)) := by
  have scan : ∀ r, (s.endScan r).state = s.state ∨ (s.endScan r).state = .faultUnmatched
    | .offEnd _ _ => .inr rfl
    | .found _ => .inl rfl
  cases exec_effect x with
  | dpIncFault => exact .inr (.inl ⟨rfl, .inl rfl⟩)
  | dpDecFault => exact .inr (.inl ⟨rfl, .inr rfl⟩)
  | jz => exact (scan _).imp_right fun e => .inr ⟨e, .inl rfl⟩
  | jnz => exact (scan _).imp_right fun e => .inr ⟨e, .inr rfl⟩
  | _ => exact .inl rfl

/-- Settles O43: one case for each thing a step can do. -/
theorem runEndsFourWays : Obligations.RunEndsFourWays := by
  unfold Obligations.RunEndsFourWays
  intro s t run x ends
  obtain ⟨u, hu, rfl⟩ := step_effect x
  cases hu with
  | reset h => exact .inl ⟨rfl, h⟩
  | start _ n => exact absurd run n
  | load _ n => exact absurd run n
  | abort h _ a =>
    simp only [State.abortTaken, Bool.and_eq_true] at a
    exact .inr ⟨h, .inr (.inl ⟨rfl, a.left⟩)⟩
  | done h _ _ e => exact .inr ⟨h, .inl ⟨rfl, e⟩⟩
  | exec h _ _ e x =>
    obtain same | ⟨oob, cause⟩ | ⟨unmatched, cause⟩ := exec_state_cause x
    · exact absurd (same.trans run) ends
    · exact .inr ⟨h, .inr (.inr (.inl ⟨oob, e, cause⟩))⟩
    · exact .inr ⟨h, .inr (.inr (.inr ⟨unmatched, e, cause⟩))⟩

end Sys2Proof.Machine
end

section
/-!
SUPPORT. The cycle-level machine as a refinement of the step (40_fetch_engine.md §3): what a cycle does in each phase when `abort` is
1 and when it is 0, the cycles of one instruction (R87), and the `L` cycles of the start clear (R145).
-/
namespace Sys2Proof.Machine

variable {s a e u : State} {i : Instr} {n : Nat}

/-! ### One cycle in a given phase (R85, R86) -/

theorem cycleRun_of_abort (ha : s.now.abort = true) (k : Host.Outcome State Fault Refusal) :
    cycleRun s k = .next (s.haltRun .aborted) := if_pos ha

theorem cycleRun_of_no_abort (ha : s.now.abort = false) (k : Host.Outcome State Fault Refusal) :
    cycleRun s k = k := if_neg (by simp [ha])

theorem cyclePhase_of_abort (ha : s.now.abort = true) (notHalt : s.phase ≠ .halt) (notClear : s.phase ≠ .clear) :
    cyclePhase s = .next (s.haltRun .aborted) := by
  unfold cyclePhase
  cases p : s.phase with
  | halt => exact absurd p notHalt
  | clear => exact absurd p notClear
  | _ => exact cycleRun_of_abort ha _

theorem cyclePhase_clear (p : s.phase = .clear) : cyclePhase s = cycleClear s := by
  rw [cyclePhase, p]

theorem cyclePhase_fetch (p : s.phase = .fetch) (ha : s.now.abort = false) :
    cyclePhase s = .next (cycleFetch s) := by
  rw [cyclePhase, p]
  exact cycleRun_of_no_abort ha _

theorem cyclePhase_exec (p : s.phase = .exec) (ha : s.now.abort = false) : cyclePhase s = cycleExec s := by
  rw [cyclePhase, p]
  exact cycleRun_of_no_abort ha _

theorem cyclePhase_waitOut (p : s.phase = .waitOut) (ha : s.now.abort = false) (ready : s.now.outReady = true) :
    cyclePhase s = commit (exec .out s) := by
  rw [cyclePhase, p]
  exact (cycleRun_of_no_abort ha _).trans (if_pos ready)

theorem cyclePhase_waitIn (p : s.phase = .waitIn) (ha : s.now.abort = false) (answers : s.answer ≠ none) :
    cyclePhase s = commit (exec .inp s) := by
  rw [cyclePhase, p]
  exact (cycleRun_of_no_abort ha _).trans (if_pos (Option.isSome_iff_ne_none.2 answers))

theorem cycleClear_before_last (h : s.clrA.toNat + 1 < Config.tapeLen) : cycleClear s = .next s.clearOne := by
  rw [cycleClear, if_pos (Nat.lt_of_succ_lt h), if_neg h.ne]

theorem cycleClear_last (h : s.clrA.toNat + 1 = Config.tapeLen) : cycleClear s = .next s.clearOne.enterRun := by
  rw [cycleClear, if_pos (Nat.lt_of_succ_le h.le), if_pos h]

/-- Settles O56: the abort check comes before what the phase does, and the clear has none. -/
theorem cycleAbortComesFirst : Obligations.CycleAbortComesFirst := by
  unfold Obligations.CycleAbortComesFirst
  intro s hr ha
  refine ⟨fun notHalt notClear => ?_, fun p hc => ?_⟩
  · exact ⟨_, cycle_of_phase hr (cyclePhase_of_abort ha notHalt notClear), rfl,
      (SameArch.haltRun s .aborted).trans (.tickOver _)⟩
  · obtain last | more := Nat.eq_or_lt_of_le hc
    · exact ⟨_, cycle_of_phase hr ((cyclePhase_clear p).trans (cycleClear_last last)), rfl, by simp⟩
    · exact ⟨_, cycle_of_phase hr ((cyclePhase_clear p).trans (cycleClear_before_last more)), rfl, by simp [p]⟩

/-! ### From a point inside an instruction to its end -/

/-- From `s`, at least 1 and at most `b` cycles lead to a boundary with the architectural state of `u`. -/
def ReachesWithin (b : Nat) (u s : State) : Prop :=
  ∃ (n : Nat) (t : State), 1 ≤ n ∧ n ≤ b ∧ cycles n s = .next t ∧ SameArch u t ∧ t.phase = boundaryPhase t.state

theorem ReachesWithin.mono {b c : Nat} (h : ReachesWithin b u s) (le : b ≤ c) : ReachesWithin c u s := by
  obtain ⟨n, t, pos, bound, run, same, phase⟩ := h
  exact ⟨n, t, pos, bound.trans le, run, same, phase⟩

theorem ReachesWithin.of_sameArch {b : Nat} (h : ReachesWithin b e s) (g : SameArch u e) : ReachesWithin b u s := by
  obtain ⟨n, t, pos, bound, run, same, phase⟩ := h
  exact ⟨n, t, pos, bound, run, g.trans same, phase⟩

/-- One more cycle in front. -/
theorem ReachesWithin.after {b : Nat} (h : ReachesWithin b u e) (x : cycle s = .next e) :
    ReachesWithin (b + 1) u s := by
  obtain ⟨n, t, _, bound, run, same, phase⟩ := h
  exact ⟨n + 1, t, by omega, by omega, (cycles_succ x).trans run, same, phase⟩

/-- `e` is a point in the middle of the instruction that began at `a`: its architectural state is still that of `a`, and the
inputs are those `a` has now, in this cycle and in `n` more. -/
structure Amid (a : State) (n : Nat) (e : State) : Prop where
  same : SameArch a e
  steady : ∀ k ≤ n, e.inputAt k = a.now

theorem Amid.now (h : Amid a n e) : e.now = a.now := h.steady 0 (Nat.zero_le n)

theorem Amid.answer (h : Amid a n e) : e.answer = a.answer := by
  unfold State.answer
  rw [h.now]

/-- After a cycle that writes transient registers alone, the point reached is in the middle of the instruction too. -/
theorem Amid.next (h : Amid a (n + 1) e) (same : SameArch e u) (inputs : u.inputAt = e.inputAt) :
    Amid a n u.tickOver where
  same := (h.same.trans same).trans (.tickOver u)
  steady k hk := by
    rw [State.inputAt_tickOver, inputs]
    exact h.steady (k + 1) (by omega)

/-- Under the inputs of now a run meets nothing but its program: no `rst`, no `abort`, a sink that takes a byte and a channel
that answers; and `DP` is a cell's address. -/
structure Served (a : State) : Prop where
  rst : a.now.rst = false
  abort : a.now.abort = false
  outReady : a.now.outReady = true
  answer : a.answer ≠ none
  dpIn : a.dp.toNat < Config.tapeLen

/-- A cycle does what its phase does. -/
theorem Amid.cycle (h : Amid a n e) (c : Served a) (x : cyclePhase e = .next s) : cycle e = .next s.tickOver :=
  cycle_of_phase (h.now ▸ c.rst) x

theorem Amid.no_abort (h : Amid a n e) (c : Served a) : e.now.abort = false := h.now ▸ c.abort

theorem Amid.dpIn (h : Amid a n e) (c : Served a) : e.dp.toNat < Config.tapeLen := h.same.dp ▸ c.dpIn

/-- A cycle in which the instruction commits ends it, with the effect it has at the boundary before it (R87). -/
theorem Amid.reaches_of_commit (h : Amid a n e) (c : Served a) (p : cyclePhase e = commit (exec i e))
    (x : exec i a = .next u) : ReachesWithin 1 u e := by
  obtain ⟨v, y⟩ := exec_total i (h.dpIn c)
  have commits : cyclePhase e = .next v.rephase := by rw [p, y]; rfl
  exact ⟨1, _, le_rfl, le_rfl, cycles_one (h.cycle c commits),
    ((h.same.exec h.now x y).trans (.rephase v)).trans (.tickOver _), rfl⟩

/-- A `.` or `,` after EXEC: it commits in its wait, whose channel does its part at once. -/
theorem Amid.reaches_of_wait {wait : Phase} (h : Amid a (n + 1) e) (c : Served a)
    (p : cyclePhase e = .next (e.toPhase wait))
    (commits : Amid a n (e.toPhase wait).tickOver →
      cyclePhase (e.toPhase wait).tickOver = commit (exec i (e.toPhase wait).tickOver))
    (x : exec i a = .next u) : ReachesWithin 2 u e := by
  have waiting : Amid a n (e.toPhase wait).tickOver := h.next (.toPhase e _) rfl
  exact (waiting.reaches_of_commit c (commits waiting) x).after (h.cycle c p)

/-- The inputs of every cycle of a scan. -/
theorem Amid.no_rst_no_abort (h : Amid a n e) (c : Served a) :
    ∀ k < n + 1, (e.inputAt k).rst = false ∧ (e.inputAt k).abort = false := fun k hk => by
  rw [h.steady k (Nat.le_of_lt_succ hk)]
  exact ⟨c.rst, c.abort⟩

/-- A taken jump after EXEC: the matcher comes to the end of the scan, which is what the jump does. -/
theorem Amid.reaches_of_scan {b : Nat} {scan : Phase} {first : Int} {r : ScanEnd} (h : Amid a n e) (c : Served a)
    (p : cyclePhase e = .next (e.enterScan scan first))
    (matcher : ReachesWithin b ((e.enterScan scan first).tickOver.endScan r) (e.enterScan scan first).tickOver)
    (taken : exec i e = .next (e.endScan r)) (x : exec i a = .next u) : ReachesWithin (b + 1) u e := by
  have entered : SameArch e (e.enterScan scan first).tickOver := (SameArch.enterScan e _ _).trans (.tickOver _)
  exact (matcher.of_sameArch ((h.same.exec h.now x taken).trans (entered.endScan r))).after (h.cycle c p)

/-- The matcher's cycles from the byte after a `[` of the program: at most one for each index up to `PLEN`. -/
theorem Amid.matcherF (h : Amid a (a.plen + 1) e) (c : Served a) (run : a.state = .running) (inside : a.pc < a.plen) :
    ReachesWithin (a.plen + 1) ((e.enterScan .scanF ((e.pc : Int) + 1)).tickOver.endScan (scanFwd e e.pc))
      (e.enterScan .scanF ((e.pc : Int) + 1)).tickOver := by
  have entered : Amid a a.plen (e.enterScan .scanF ((e.pc : Int) + 1)).tickOver := h.next (.enterScan e _ _) rfl
  have inputs := entered.no_rst_no_abort c
  rw [← h.same.plen] at inside inputs ⊢
  rw [← h.same.pc] at inside
  exact cycles_scanF (e.plen + 1) _ rfl (h.same.state.trans run) inputs (by simp; omega) (by simp; omega)

/-- The matcher's cycles from the byte before a `]` of the program: at most one for each index down to -1. -/
theorem Amid.matcherB (h : Amid a (a.plen + 1) e) (c : Served a) (run : a.state = .running) (inside : a.pc < a.plen) :
    ReachesWithin (a.plen + 1) ((e.enterScan .scanB ((e.pc : Int) - 1)).tickOver.endScan (scanBwd e e.pc))
      (e.enterScan .scanB ((e.pc : Int) - 1)).tickOver := by
  have entered : Amid a a.plen (e.enterScan .scanB ((e.pc : Int) - 1)).tickOver := h.next (.enterScan e _ _) rfl
  have inputs := entered.no_rst_no_abort c
  rw [← h.same.pc] at inside
  have within : ReachesWithin (e.pc + 1) _ _ := cycles_scanB (e.pc + 1) (e.enterScan .scanB ((e.pc : Int) - 1)).tickOver
    rfl (h.same.state.trans run) (fun k hk => inputs k (by omega)) (by simp; omega) (by simp)
  exact within.mono (by omega)

/-- From EXEC every instruction comes to its end, with the effect it has at the boundary before it (R85, R87). -/
theorem Amid.reaches_of_exec (h : Amid a (a.plen + 2) e) (c : Served a) (run : a.state = .running)
    (inside : a.pc < a.plen) (p : e.phase = .exec) (ir : decodeByte e.ir = i) (x : exec i a = .next u) :
    ReachesWithin (a.plen + 2) u e := by
  have phase := cyclePhase_exec p (h.no_abort c)
  have hd := h.dpIn c
  have sooner : Amid a (a.plen + 1) e := ⟨h.same, fun k hk => h.steady k (by omega)⟩
  rw [cycleExec, ir] at phase
  cases i with
  | out =>
    refine (h.reaches_of_wait c phase (fun waiting => ?_) x).mono (by omega)
    exact cyclePhase_waitOut rfl (waiting.no_abort c) (waiting.now ▸ c.outReady)
  | inp =>
    refine (h.reaches_of_wait c phase (fun waiting => ?_) x).mono (by omega)
    exact cyclePhase_waitIn rfl (waiting.no_abort c) (waiting.answer ▸ c.answer)
  | jz =>
    replace phase := phase.trans (State.onCell_of_lt hd _)
    by_cases z : e.current = 0
    · rw [(isZero_iff _).2 z] at phase
      exact h.reaches_of_scan c phase (sooner.matcherF c run inside) (exec_jz_taken hd z) x
    · rw [eq_false_of_ne_true (mt (isZero_iff _).1 z)] at phase
      exact (h.reaches_of_commit (i := .jz) c (by rw [phase, exec_jz_falls hd z]; rfl) x).mono (by omega)
  | jnz =>
    replace phase := phase.trans (State.onCell_of_lt hd _)
    by_cases z : e.current = 0
    · rw [(isZero_iff _).2 z] at phase
      exact (h.reaches_of_commit (i := .jnz) c (by rw [phase, exec_jnz_falls hd z]; rfl) x).mono (by omega)
    · rw [eq_false_of_ne_true (mt (isZero_iff _).1 z)] at phase
      exact h.reaches_of_scan c phase (sooner.matcherB c run inside) (exec_jnz_taken hd z) x
  | _ => exact (h.reaches_of_commit c phase x).mono (by omega)

/-! ### From one FETCH to the next boundary (R87) -/

/-- The DONE step takes one cycle of FETCH. -/
theorem reaches_of_end (c : Served s) (p : s.phase = .fetch) (hp : s.plen ≤ s.pc) :
    ReachesWithin 1 (s.haltRun .done).boundary s := by
  have ends : cyclePhase s = .next (s.haltRun .done) := by
    rw [cyclePhase_fetch p c.abort, cycleFetch, if_pos hp]
  exact ⟨1, _, le_rfl, le_rfl, cycles_one (cycle_of_phase c.rst ends),
    (SameArch.boundary _).symm.trans (.tickOver _), rfl⟩

/-- An instruction takes one cycle of FETCH and those from EXEC on. -/
theorem reaches_of_fetched (c : Served s) (run : s.state = .running) (p : s.phase = .fetch)
    (steady : ∀ k ≤ s.plen + 3, s.inputAt k = s.now) (inside : s.pc < s.plen)
    (x : exec s.fetched s.latchIr = .next u) : ReachesWithin (s.plen + 3) u.boundary s := by
  have fetch : cycle s = .next (s.latchIr.toPhase .exec).tickOver := cycle_of_phase c.rst (by
    rw [cyclePhase_fetch p c.abort, cycleFetch, if_neg (Nat.not_le_of_lt inside)])
  have latched : Amid s.latchIr (s.plen + 3) s.latchIr := ⟨.refl _, steady⟩
  have served : Served s.latchIr := ⟨c.rst, c.abort, c.outReady, c.answer, c.dpIn⟩
  have executes := (latched.next (.toPhase _ .exec) rfl).reaches_of_exec served run inside rfl rfl x
  exact (executes.of_sameArch (SameArch.boundary u).symm).after fetch

/-- Settles O57: the DONE step, or the fetched instruction. -/
theorem cyclesRefineStep : Obligations.CyclesRefineStep := by
  unfold Obligations.CyclesRefineStep
  intro s run p _ hd hr ha ready answers steady
  have c : Served s := ⟨hr, ha, ready, answers, hd⟩
  have noAbort := State.abortTaken_of_no_abort ha
  have refines : ∃ u, step s = .next u ∧ ReachesWithin (s.plen + 3) u s := by
    obtain ends | inside := le_or_gt s.plen s.pc
    · exact ⟨_, step_of_end run hr noAbort ends, (reaches_of_end c p ends).mono (by omega)⟩
    · obtain ⟨u, x⟩ := exec_total s.fetched (s := s.latchIr) hd
      exact ⟨_, by rw [step_of_fetched run hr noAbort inside, x]; rfl, reaches_of_fetched c run p steady inside x⟩
  obtain ⟨u, stepped, n, t, pos, bound, cycled, same, phase⟩ := refines
  exact ⟨n, t, u, pos, bound, cycled, stepped, same, phase⟩

/-! ### The start clear (R145) -/

/-- The state with a zero tape, both cursors at 0 and the first fetch next: what the clear leaves of `s`. -/
def State.cleared (s : State) : State := { s with tape := [] }.enterRun

/-- One clear cycle takes the entry at its index off the list (R29). -/
theorem State.mem_clearOne {c : Host.Cell} (h : c ∈ s.clearOne.tape) : c ∈ s.tape ∧ c.1 ≠ s.clrA.toNat :=
  Memory.not_mem_store_blank (d := Config.blankCell) h

theorem cycle_of_clear (p : s.phase = .clear) (hr : s.now.rst = false) (x : cycleClear s = .next u) :
    cycle s = .next u.tickOver := cycle_of_phase hr ((cyclePhase_clear p).trans x)

/-- From any point of the clear, with `n` cells to go and those before them already 0, `n` cycles leave the whole tape 0. -/
theorem cycles_clear (n : Nat) (s : State) (p : s.phase = .clear) (index : s.clrA.toNat < Config.tapeLen)
    (left : s.clrA.toNat + n = Config.tapeLen) (hr : ∀ k < n, (s.inputAt k).rst = false)
    (rest : ∀ c ∈ s.tape, s.clrA.toNat ≤ c.1 ∧ c.1 < Config.tapeLen) :
    ∃ t, cycles n s = .next t ∧ SameArch s.cleared t ∧ t.phase = .fetch := by
  induction n generalizing s with
  | zero => omega
  | succ n ih =>
    have now := hr 0 (Nat.succ_pos n)
    have beyond : ∀ c ∈ s.clearOne.tape, s.clrA.toNat + 1 ≤ c.1 ∧ c.1 < Config.tapeLen := fun c hc => by
      obtain ⟨mem, ne⟩ := State.mem_clearOne hc
      have := rest c mem
      omega
    obtain last | more := Nat.eq_or_lt_of_le index
    · have empty : s.clearOne.tape = [] := List.eq_nil_iff_forall_not_mem.2 fun c hc => by
        have := beyond c hc
        omega
      obtain rfl : n = 0 := by omega
      exact ⟨_, cycles_one (cycle_of_clear p now (cycleClear_last last)),
        ⟨empty, rfl, rfl, rfl, rfl, rfl, rfl, rfl⟩, rfl⟩
    · have up : s.clearOne.tickOver.clrA.toNat = s.clrA.toNat + 1 := dp_succ_toNat more
      obtain ⟨t, cycled, same, phase⟩ := ih s.clearOne.tickOver p (by omega) (by omega)
        (fun k hk => by rw [State.inputAt_tickOver]; exact hr (k + 1) (by omega)) (up ▸ beyond)
      have one : SameArch s.cleared s.clearOne.tickOver.cleared := ⟨rfl, rfl, rfl, rfl, rfl, rfl, rfl, rfl⟩
      exact ⟨t, (cycles_succ (cycle_of_clear p now (cycleClear_before_last more))).trans cycled, one.trans same, phase⟩

/-- Settles O58: one cycle takes `start`, and the `L` after it clear the tape from its first cell on. -/
theorem clearRefinesStart : Obligations.ClearRefinesStart := by
  unfold Obligations.ClearRefinesStart
  intro s inv n hs hr
  have now := hr 0 (Nat.zero_le _)
  have entered : cycle s = .next s.enterClear.tickOver := cycle_of_phase now (by
    rw [cyclePhase, inv.halted.2 n]
    exact congrArg _ ((if_neg n).trans (if_pos hs)))
  obtain ⟨t, cycled, same, phase⟩ := cycles_clear Config.tapeLen s.enterClear.tickOver rfl zero_in_tape (Nat.zero_add _)
    (fun k hk => by rw [State.inputAt_tickOver]; exact hr (k + 1) hk)
    (fun c hc => ⟨Nat.zero_le _, inv.stores.tapeIn c hc⟩)
  have started : SameArch s.startRun.boundary s.enterClear.tickOver.cleared := ⟨rfl, rfl, rfl, rfl, rfl, rfl, rfl, rfl⟩
  exact ⟨t, _, (cycles_succ entered).trans cycled, step_of_start n now hs, started.trans same, phase⟩

end Sys2Proof.Machine
end

section
/-!
SUPPORT. The data-pointer instructions (41_pointer.md): what `>` and `<` do away from the tape's ends and at them, as one equation for
each branch of their meanings, and that away from the ends the one undoes the other.
-/
namespace Sys2Proof.Machine

variable {s : State}

/-! ### `>` and `<`, branch by branch -/

theorem dp_ne_zero {d : TapeIndex} (h : 0 < d.toNat) : d ≠ 0 := (BitVec.ne_of_lt (x := 0) h).symm

/-- `>` below the last cell (R89). -/
theorem exec_dpInc_of_lt (h : s.dp.toNat + 1 < Config.tapeLen) :
    exec .dpInc s = .next { s with dp := s.dp + 1, pc := s.pc + 1 } := if_neg (Nat.not_le_of_lt h)

/-- `>` at the last cell or beyond it (R89). -/
theorem exec_dpInc_of_le (h : Config.tapeLen ≤ s.dp.toNat + 1) :
    exec .dpInc s = .next (s.raiseFault .outOfBounds) := if_pos h

/-- `<` above cell 0 (R90). -/
theorem exec_dpDec_of_pos (h : 0 < s.dp.toNat) :
    exec .dpDec s = .next { s with dp := s.dp - 1, pc := s.pc + 1 } := if_neg (dp_ne_zero h)

/-- `<` at cell 0 (R90). -/
theorem exec_dpDec_of_zero (h : s.dp.toNat = 0) :
    exec .dpDec s = .next (s.raiseFault .outOfBounds) := if_pos (BitVec.eq_of_toNat_eq h)

/-- Settles O6: the two branches of `>`, the first of which does not wrap. -/
theorem dpIncMovesUp : Obligations.DpIncMovesUp := by
  unfold Obligations.DpIncMovesUp
  exact fun s => ⟨fun h => ⟨_, dp_succ_toNat h, exec_dpInc_of_lt h⟩, exec_dpInc_of_le⟩

/-- Settles O7: the two branches of `<`, the first of which does not wrap. -/
theorem dpDecMovesDown : Obligations.DpDecMovesDown := by
  unfold Obligations.DpDecMovesDown
  exact fun s => ⟨fun h => ⟨_, dp_pred_toNat (dp_ne_zero h), exec_dpDec_of_pos h⟩, exec_dpDec_of_zero⟩

/-! ### Each undoes the other (R92) -/

/-- Below the last cell `>` leads to a cell above cell 0, from which `<` leads back. -/
theorem exec_dpDec_undoes_dpInc (h : s.dp.toNat + 1 < Config.tapeLen) :
    exec .dpDec { s with dp := s.dp + 1, pc := s.pc + 1 } = .next { s with pc := s.pc + 2 } := by
  have above : 0 < (s.dp + 1).toNat := by rw [dp_succ_toNat h]; exact Nat.succ_pos _
  rw [exec_dpDec_of_pos above, BitVec.add_sub_cancel]

/-- At a cell of the tape above cell 0 `<` leads to a cell below the last one, from which `>` leads back. -/
theorem exec_dpInc_undoes_dpDec (pos : 0 < s.dp.toNat) (h : s.dp.toNat < Config.tapeLen) :
    exec .dpInc { s with dp := s.dp - 1, pc := s.pc + 1 } = .next { s with pc := s.pc + 2 } := by
  have below : (s.dp - 1).toNat + 1 < Config.tapeLen := by rwa [dp_pred_toNat (dp_ne_zero pos)]
  rw [exec_dpInc_of_lt below, BitVec.sub_add_cancel]

/-- Settles O8: in either order the second move is back, and the first faults only at its own end of the tape. -/
theorem pointerMovesAreInverse : Obligations.PointerMovesAreInverse := by
  unfold Obligations.PointerMovesAreInverse
  intro s
  refine ⟨fun h => ?_, fun last => ?_, fun pos h => ?_, fun first => ?_⟩
  · exact ⟨_, _, exec_dpInc_of_lt h, exec_dpDec_undoes_dpInc h, rfl⟩
  · exact ⟨_, exec_dpInc_of_le last.ge, rfl, rfl⟩
  · exact ⟨_, _, exec_dpDec_of_pos pos, exec_dpInc_undoes_dpDec pos h, rfl⟩
  · exact ⟨_, exec_dpDec_of_zero first, rfl, rfl⟩

end Sys2Proof.Machine
end

section
/-!
SUPPORT. The cell arithmetic (42_cell_arith.md): `+` and `-` each add one byte to the current cell, `+` the byte 1 and `-` the byte
-1. What instructions in a row add, modulo 256, is the sum of their bytes, which gives the laws of R95.
-/
namespace Sys2Proof.Machine

variable {s t u : State}

/-! ### Adding a byte to the current cell -/

/-- The current cell with `v` added modulo 256, and `PC` one higher: what `+` and `-` have in common. -/
def State.addCurrent (s : State) (v : Byte) : State := (s.setCurrent (s.current + v)).retire

/-- `t` is `s` after `n` instructions that left `DP` alone and added `v` to the current cell between them. -/
structure AddsToCell (s : State) (v : Byte) (n : Nat) (t : State) : Prop where
  current : t.cell s.dp.toNat = s.cell s.dp.toNat + v
  others : ∀ a, a ≠ s.dp.toNat → t.cell a = s.cell a
  dp : t.dp = s.dp
  pc : t.pc = s.pc + n

theorem addsToCell_addCurrent (s : State) (v : Byte) : AddsToCell s v 1 (s.addCurrent v) where
  current := (s.cell_setCurrent _ _).trans (if_pos rfl)
  others a ha := (s.cell_setCurrent a _).trans (if_neg ha.symm)
  dp := rfl
  pc := rfl

theorem AddsToCell.refl (s : State) : AddsToCell s 0 0 s := ⟨(add_zero _).symm, fun _ _ => rfl, rfl, rfl⟩

theorem AddsToCell.trans {v w : Byte} {m n : Nat} (g : AddsToCell s v m t) (h : AddsToCell t w n u) :
    AddsToCell s (v + w) (m + n) u where
  current := by rw [← g.dp, h.current, g.dp, g.current, BitVec.add_assoc]
  others a ha := (h.others a (g.dp ▸ ha)).trans (g.others a ha)
  dp := h.dp.trans g.dp
  pc := by rw [h.pc, g.pc, Nat.add_assoc]

theorem AddsToCell.cell_of_zero {n : Nat} (h : AddsToCell s 0 n t) (a : Nat) : t.cell a = s.cell a := by
  by_cases ha : a = s.dp.toNat
  · rw [ha, h.current, add_zero]
  · exact h.others a ha

/-! ### `+` and `-` -/

theorem exec_cInc_of_lt (hd : s.dp.toNat < Config.tapeLen) : exec .cInc s = .next (s.addCurrent 1) := if_pos hd

theorem exec_cDec_of_lt (hd : s.dp.toNat < Config.tapeLen) : exec .cDec s = .next (s.addCurrent (-1)) := by
  rw [State.addCurrent, ← BitVec.sub_eq_add_neg]
  exact if_pos hd

/-- Settles O10: `+` adds the byte 1. -/
theorem cellIncrement : Obligations.CellIncrement := by
  unfold Obligations.CellIncrement
  intro s hd
  have adds := addsToCell_addCurrent s 1
  exact ⟨_, exec_cInc_of_lt hd, by rw [adds.current]; exact BitVec.toNat_add _ _, adds.others, rfl⟩

/-- Adding the byte -1 is subtracting one modulo 256, which takes 0 to 255. -/
theorem toNat_add_neg_one (b : Byte) : ((b + -1).toNat : Int) = (b.toNat - 1 : Int) % 256 := by
  have sum : (b + -1).toNat = (b.toNat + 255) % 256 := BitVec.toNat_add _ _
  omega

/-- Settles O11: `-` adds the byte -1. -/
theorem cellDecrement : Obligations.CellDecrement := by
  unfold Obligations.CellDecrement
  intro s hd
  have adds := addsToCell_addCurrent s (-1)
  exact ⟨_, exec_cDec_of_lt hd, by rw [adds.current, toNat_add_neg_one], adds.others, rfl⟩

/-! ### Cell arithmetic in a row (R95) -/

theorem execTimes_succ {i : Instr} (k : Nat) (x : exec i s = .next t) : execTimes i (k + 1) s = execTimes i k t := by
  rw [execTimes, x]

/-- `k` consecutive `+` add `k` modulo 256. -/
theorem execTimes_cInc (k : Nat) (hd : s.dp.toNat < Config.tapeLen) :
    ∃ t, execTimes .cInc k s = .next t ∧ AddsToCell s (BitVec.ofNat 8 k) k t := by
  induction k generalizing s with
  | zero => exact ⟨s, rfl, .refl s⟩
  | succ k ih =>
    obtain ⟨t, x, rest⟩ := ih (s := s.addCurrent 1) hd
    have sum : BitVec.ofNat 8 (1 + k) = 1 + BitVec.ofNat 8 k := BitVec.ofNat_add ..
    have adds := (addsToCell_addCurrent s 1).trans rest
    rw [← sum, Nat.add_comm 1 k] at adds
    exact ⟨t, (execTimes_succ k (exec_cInc_of_lt hd)).trans x, adds⟩

/-- Settles O12: `k` times the byte 1 is `k` modulo 256, which is 0 for `k` = 256, and the bytes 1 and -1 add up to 0. -/
theorem cellArithmeticIsModulo : Obligations.CellArithmeticIsModulo := by
  unfold Obligations.CellArithmeticIsModulo
  intro s hd
  have inverse (v w : Byte) (zero : v + w = 0) (a : Nat) : ((s.addCurrent v).addCurrent w).cell a = s.cell a :=
    AddsToCell.cell_of_zero (zero ▸ (addsToCell_addCurrent s v).trans (addsToCell_addCurrent _ w)) a
  refine ⟨fun k => ?_, ?_, ?_, ?_⟩
  · obtain ⟨t, x, adds⟩ := execTimes_cInc k hd
    have sum : (t.cell s.dp.toNat).toNat = ((s.cell s.dp.toNat).toNat + k) % 256 := by
      rw [adds.current, BitVec.toNat_add, BitVec.toNat_ofNat, Nat.add_mod_mod]
    exact ⟨t, x, sum, adds.others, adds.dp, adds.pc⟩
  · obtain ⟨t, x, adds⟩ := execTimes_cInc 256 hd
    exact ⟨t, x, adds.cell_of_zero⟩
  · exact ⟨_, _, exec_cInc_of_lt hd, exec_cDec_of_lt hd, inverse 1 (-1) rfl⟩
  · exact ⟨_, _, exec_cDec_of_lt hd, exec_cInc_of_lt hd, inverse (-1) 1 rfl⟩

end Sys2Proof.Machine
end

section
/-!
SUPPORT. Input and output (43_io.md): what `.` and `,` do for each answer of their channels, what an instruction adds to the
record of the transfers, and the two handshakes of the cycle-level machine.
-/
namespace Sys2Proof.Machine

variable {s t : State} {i : Instr}

/-! ### `.` and `,`, answer by answer -/

/-- `.` when the sink takes the byte (R102). -/
theorem exec_out_of_ready (hd : s.dp.toNat < Config.tapeLen) (ready : s.now.outReady = true) :
    exec .out s = .next { s with pc := s.pc + 1, outBytes := s.outBytes ++ [s.cell s.dp.toNat] } := by
  rw [exec, execOut, State.onCell_of_lt hd, if_pos ready]
  rfl

/-- `,` when the channel answers a byte (R103). -/
theorem exec_inp_of_byte {v : Byte} (hd : s.dp.toNat < Config.tapeLen) (byte : s.answer = some (.byte v)) :
    exec .inp s = .next { (s.setCurrent v).retire with inAnswers := s.inAnswers + 1 } := by
  rw [exec, execIn, byte]
  exact State.atCell_of_lt hd _

/-- `,` on end-of-input (R98, R103). -/
theorem exec_inp_of_eof (eof : s.answer = some .eof) :
    exec .inp s = .next { s with pc := s.pc + 1, inAnswers := s.inAnswers + 1 } := by
  rw [exec, execIn, eof]
  rfl

/-- Settles O13: `.` with the sink ready, and `.` waiting. -/
theorem outSendsCurrentCell : Obligations.OutSendsCurrentCell := by
  unfold Obligations.OutSendsCurrentCell
  exact fun s hd => ⟨exec_out_of_ready hd, exec_out_waits hd⟩

/-- Settles O14: one case for each answer; a byte is a write of the current cell, which leaves the other cells alone. -/
theorem inputWritesCurrentCell : Obligations.InputWritesCurrentCell := by
  unfold Obligations.InputWritesCurrentCell
  intro s hd
  refine ⟨fun v byte => ?_, exec_inp_of_eof, exec_inp_waits⟩
  exact ⟨_, exec_inp_of_byte hd byte, (s.cell_setCurrent _ v).trans (if_pos rfl),
    fun a ha => (s.cell_setCurrent a v).trans (if_neg ha.symm), rfl⟩

/-! ### The record of the transfers (R104) -/

/-- Settles O15: only a `.` whose byte is taken and a `,` that is answered write the record, one entry each. -/
theorem channelTransfersInOrder : Obligations.ChannelTransfersInOrder := by
  unfold Obligations.ChannelTransfersInOrder
  intro i s t x
  cases exec_effect x with
  | out _ ready => exact ⟨(if_pos ⟨rfl, ready⟩).symm, rfl⟩
  | outWait _ busy => simp [busy]
  | inpByte v _ byte => simp [byte]
  | inpEof eof => simp [eof]
  | inpWait silent => simp [silent]
  | _ => simp

/-! ### The ports and the input channel's answer (R100, R101) -/

theorem State.outValid_iff : s.outValid = true ↔ s.phase = .waitOut ∧ s.now.abort = false ∧ s.now.rst = false := by
  simp [State.outValid, and_assoc]

theorem State.inReq_iff : s.inReq = true ↔ s.phase = .waitIn ∧ s.now.abort = false ∧ s.now.rst = false := by
  simp [State.inReq, and_assoc]

theorem State.outData_of_valid (valid : s.outValid = true) : s.outData = s.cell s.dp.toNat := if_pos valid

/-- The answer is a byte whenever `in_valid` is 1, whatever `in_eof` is. -/
theorem State.answer_of_valid (valid : s.now.inValid = true) : s.answer = some (.byte s.now.inData) := if_pos valid

theorem State.answer_of_eof (invalid : s.now.inValid = false) (eof : s.now.inEof = true) : s.answer = some .eof := by
  simp [State.answer, invalid, eof]

theorem State.answer_of_silent (invalid : s.now.inValid = false) (noEof : s.now.inEof = false) : s.answer = none := by
  simp [State.answer, invalid, noEof]

/-! ### A cycle in a wait phase (R85) -/

theorem boundaryPhase_ne_waitOut (e : RunState) : boundaryPhase e ≠ .waitOut := by cases e <;> decide

theorem boundaryPhase_ne_waitIn (e : RunState) : boundaryPhase e ≠ .waitIn := by cases e <;> decide

/-- A cycle in which an instruction commits. -/
theorem cycle_of_commit (hr : s.now.rst = false) (p : cyclePhase s = commit (exec i s)) (x : exec i s = .next t) :
    cycle s = .next t.rephase.tickOver := by
  rw [x] at p
  exact cycle_of_phase hr p

theorem cyclePhase_waitOut_busy (p : s.phase = .waitOut) (ha : s.now.abort = false) (busy : s.now.outReady = false) :
    cyclePhase s = .next s := by
  rw [cyclePhase, p]
  exact (cycleRun_of_no_abort ha _).trans (if_neg (by simp [busy]))

theorem cyclePhase_waitIn_silent (p : s.phase = .waitIn) (ha : s.now.abort = false) (silent : s.answer = none) :
    cyclePhase s = .next s := by
  rw [cyclePhase, p]
  exact (cycleRun_of_no_abort ha _).trans (if_neg (by simp [silent]))

/-- Settles O17: the `.` commits in the cycle in which the sink takes the byte; before that a cycle keeps the current cell, which
is what the port shows. -/
theorem outputHandshake : Obligations.OutputHandshake := by
  unfold Obligations.OutputHandshake
  refine fun s => ⟨fun valid => ?_, fun p hr ha hd => ?_⟩
  · obtain ⟨p, ha, _⟩ := State.outValid_iff.1 valid
    exact ⟨p, ha⟩
  have valid : s.outValid = true := State.outValid_iff.2 ⟨p, ha, hr⟩
  have offers : s.outData = s.cell s.dp.toNat := State.outData_of_valid valid
  refine ⟨valid, offers, fun ready => ?_, fun busy => ?_⟩
  · have commits := cycle_of_commit hr (cyclePhase_waitOut p ha ready) (exec_out_of_ready hd ready)
    exact ⟨_, commits, by rw [offers]; rfl, rfl, boundaryPhase_ne_waitOut _⟩
  · have waits := cycle_of_phase hr (cyclePhase_waitOut_busy p ha busy)
    exact ⟨_, waits, .tickOver s, p, fun again => (State.outData_of_valid again).trans offers.symm⟩

/-- Settles O18: the `,` commits in the cycle in which the channel answers, with that answer's effect. -/
theorem inputHandshake : Obligations.InputHandshake := by
  unfold Obligations.InputHandshake
  refine fun s => ⟨fun asks => ?_, fun p hr ha hd => ?_⟩
  · obtain ⟨p, ha, _⟩ := State.inReq_iff.1 asks
    exact ⟨p, ha⟩
  have commits {t : State} (answered : s.answer ≠ none) (x : exec .inp s = .next t) :
      cycle s = .next t.rephase.tickOver :=
    cycle_of_commit hr (cyclePhase_waitIn p ha answered) x
  refine ⟨State.inReq_iff.2 ⟨p, ha, hr⟩, fun valid => ?_, fun invalid eof => ?_, fun invalid noEof => ?_⟩
  · have byte := State.answer_of_valid valid
    exact ⟨_, commits (by simp [byte]) (exec_inp_of_byte hd byte), (s.cell_setCurrent _ _).trans (if_pos rfl), rfl, rfl,
      boundaryPhase_ne_waitIn _⟩
  · have eof := State.answer_of_eof invalid eof
    exact ⟨_, commits (by simp [eof]) (exec_inp_of_eof eof), rfl, rfl, rfl, boundaryPhase_ne_waitIn _⟩
  · have silent := State.answer_of_silent invalid noEof
    exact ⟨_, cycle_of_phase hr (cyclePhase_waitIn_silent p ha silent), .tickOver s, p⟩

end Sys2Proof.Machine
end

section
/-!
SUPPORT. The jumps (44_jump.md): a scan finds the bracket that balances its start and no other index, so a taken jump ends as that
bracket stands or is missing, and the balance read from the left is the balance read from the right.
-/
namespace Sys2Proof.Machine

variable {s : State}

/-! ### A scan finds the bracket that balances its start (R113) -/

/-- The scan's end `r` is a match exactly at the address that satisfies `Match`, which is never negative. -/
structure ScanEnd.Finds (r : ScanEnd) (Match : Nat → Prop) : Prop where
  found_iff : ∀ m : Nat, r = .found m ↔ Match m
  nonneg : ∀ j : Int, r = .found j → 0 ≤ j

theorem ScanEnd.finds_found {Match : Nat → Prop} {m : Nat} (h : Match m) (unique : ∀ {n}, Match n → n = m) :
    (ScanEnd.found m).Finds Match where
  found_iff n := ⟨fun e => by cases e; exact h, fun hn => by rw [unique hn]⟩
  nonneg j e := by cases e; exact Int.natCast_nonneg m

theorem ScanEnd.finds_offEnd {Match : Nat → Prop} (noMatch : ∀ m, ¬ Match m) (j : Int) (d : Nat) :
    (ScanEnd.offEnd j d).Finds Match where
  found_iff m := ⟨nofun, fun h => absurd h (noMatch m)⟩
  nonneg := nofun

/-- `ScanFwd` finds the `]` that balances its start; from `PLEN` or beyond there is none, and it finds none. -/
theorem scanFwd_finds (s : State) (p : Nat) : (scanFwd s p).Finds (FwdMatch s p) := by
  rcases Nat.lt_or_ge p s.plen with inside | beyond
  · obtain ⟨m, h, e⟩ | ⟨noMatch, d, e⟩ := scanFwd_cases p inside
    · exact e ▸ ScanEnd.finds_found h fun hn => hn.unique h
    · exact e ▸ ScanEnd.finds_offEnd noMatch _ d
  · have noMatch (m : Nat) (h : FwdMatch s p m) : False := by have := h.after; have := h.inside; omega
    exact scanFwd_beyond p beyond ▸ ScanEnd.finds_offEnd noMatch _ _

/-- `ScanBwd` finds the `[` that balances its start. -/
theorem scanBwd_finds (s : State) (p : Nat) : (scanBwd s p).Finds (BwdMatch s p) := by
  obtain ⟨m, h, e⟩ | ⟨noMatch, d, e⟩ := scanBwd_cases (s := s) p
  · exact e ▸ ScanEnd.finds_found h fun hn => hn.unique h
  · exact e ▸ ScanEnd.finds_offEnd noMatch _ d

/-- Settles O21: what each scan finds. -/
theorem scanFindsBalancingBracket : Obligations.ScanFindsBalancingBracket := by
  unfold Obligations.ScanFindsBalancingBracket
  intro s p
  have fwd := scanFwd_finds s p
  have bwd := scanBwd_finds s p
  exact ⟨fwd.found_iff, bwd.found_iff, fun j e => e.elim (fwd.nonneg j) (bwd.nonneg j)⟩

/-! ### `[` and `]` (R110, R111) -/

section
variable {r : ScanEnd} {Match : Nat → Prop}

/-- A taken jump whose bracket has a partner at `m` ends just past it. -/
theorem ScanEnd.Finds.endScan_of_match (f : r.Finds Match) (s : State) {m : Nat} (h : Match m) :
    s.endScan r = { s with pc := m + 1, scanJ := m, depth := 0 } := by
  rw [(f.found_iff m).2 h]
  rfl

theorem ScanEnd.Finds.offEnd_of_no_match (f : r.Finds Match) (noMatch : ∀ m, ¬ Match m) : ∃ j d, r = .offEnd j d := by
  cases r with
  | offEnd j d => exact ⟨j, d, rfl⟩
  | found j =>
    obtain ⟨m, rfl⟩ := Int.eq_ofNat_of_zero_le (f.nonneg j rfl)
    exact absurd ((f.found_iff m).1 rfl) (noMatch m)

/-- A taken jump whose bracket has no partner raises `UnmatchedBracket`. -/
theorem ScanEnd.Finds.endScan_of_no_match (f : r.Finds Match) (s : State) (noMatch : ∀ m, ¬ Match m) :
    ∃ (j : Int) (d : Nat), s.endScan r =
      { s with pc := s.pc + 1, state := .faultUnmatched, phase := .halt, scanJ := j, depth := d } := by
  obtain ⟨j, d, rfl⟩ := f.offEnd_of_no_match noMatch
  exact ⟨j, d, rfl⟩

/-- A taken jump of a run ends it in FAULT_UNMATCHED exactly when its bracket has no partner. -/
theorem ScanEnd.Finds.endScan_unmatched_iff (f : r.Finds Match) (run : s.state = .running) :
    (s.endScan r).state = .faultUnmatched ↔ ∀ m, ¬ Match m := by
  constructor
  · intro fault m h
    rw [f.endScan_of_match s h] at fault
    exact absurd (run.symm.trans fault) (by decide)
  · intro noMatch
    obtain ⟨j, d, e⟩ := f.endScan_of_no_match s noMatch
    rw [e]

end

/-- Settles O19: `[` falls through, or ends as its scan does. -/
theorem forwardJump : Obligations.ForwardJump := by
  unfold Obligations.ForwardJump
  intro s hd
  have scan := scanFwd_finds s s.pc
  refine ⟨exec_jz_falls hd, fun zero m h => ?_, fun zero noMatch => ?_⟩
  · rw [exec_jz_taken hd zero, scan.endScan_of_match s h]
  · obtain ⟨j, d, e⟩ := scan.endScan_of_no_match s noMatch
    exact ⟨j, d, by rw [exec_jz_taken hd zero, e]⟩

/-- Settles O20: `]` falls through, or ends as its scan does. -/
theorem backwardJump : Obligations.BackwardJump := by
  unfold Obligations.BackwardJump
  intro s hd
  have scan := scanBwd_finds s s.pc
  refine ⟨exec_jnz_falls hd, fun nonzero m h => ?_, fun nonzero noMatch => ?_⟩
  · rw [exec_jnz_taken hd nonzero, scan.endScan_of_match s h]
  · obtain ⟨j, d, e⟩ := scan.endScan_of_no_match s noMatch
    exact ⟨j, d, by rw [exec_jnz_taken hd nonzero, e]⟩

/-- Settles O25: the jumps by the cell they test, and no other instruction raises `UnmatchedBracket`. -/
theorem unmatchedOnlyWhenTaken : Obligations.UnmatchedOnlyWhenTaken := by
  unfold Obligations.UnmatchedOnlyWhenTaken
  intro i s t run x
  cases exec_effect x with
  | jz _ zero =>
    have zero : s.cell s.dp.toNat = 0#8 := zero
    simp [(scanFwd_finds s s.pc).endScan_unmatched_iff run, zero]
  | jzFall _ nonzero =>
    have nonzero : s.cell s.dp.toNat ≠ 0#8 := nonzero
    simp [run, nonzero]
  | jnz _ nonzero =>
    have nonzero : s.cell s.dp.toNat ≠ 0#8 := nonzero
    simp [(scanBwd_finds s s.pc).endScan_unmatched_iff run, nonzero]
  | jnzFall _ zero =>
    have zero : s.cell s.dp.toNat = 0#8 := zero
    simp [run, zero]
  | dpIncFault => simp [Cause.code]
  | dpDecFault => simp [Cause.code]
  | _ => simp [run]

/-! ### A scan's registers (R108, R109) -/

/-- What the range of a forward scan inside the program says of its index and counter (R108, R109). -/
theorem FwdRange.bounds {j : Int} {d : Nat} (r : FwdRange s j d) :
    (s.pc : Int) + 1 ≤ j ∧ j ≤ s.plen ∧ 1 ≤ d ∧ (d : Int) + s.pc ≤ j ∧ d ≤ s.plen := by
  obtain ⟨pos, low, high⟩ := r
  exact ⟨by omega, high, pos, low, by omega⟩

/-- What the range of a backward scan inside the program says of its index and counter (R108, R109). -/
theorem BwdRange.bounds {j : Int} {d : Nat} (r : BwdRange s j d) (hp : s.pc < s.plen) :
    -1 ≤ j ∧ j ≤ (s.pc : Int) - 1 ∧ 1 ≤ d ∧ (d : Int) + j ≤ s.pc ∧ d ≤ s.plen := by
  obtain ⟨pos, high, low⟩ := r
  exact ⟨low, by omega, pos, high, by omega⟩

/-- A failed forward scan ends in its range. -/
theorem fwdRange_of_offEnd (hp : s.pc < s.plen) {j : Int} {d : Nat} (h : scanFwd s s.pc = .offEnd j d) :
    FwdRange s j d := by
  obtain ⟨j', d', r, e⟩ | ⟨j', d', _, _, e⟩ := scanLoop_keeps FwdRange.more (s.plen + 1) (fwdRange_first hp)
  · cases e.symm.trans h; exact r
  · cases e.symm.trans h

/-- A failed backward scan ends in its range. -/
theorem bwdRange_of_offEnd {j : Int} {d : Nat} (h : scanBwd s s.pc = .offEnd j d) : BwdRange s j d := by
  obtain ⟨j', d', r, e⟩ | ⟨j', d', _, _, e⟩ := scanLoop_keeps BwdRange.more (s.pc + 1) (bwdRange_first (s := s))
  · cases e.symm.trans h; exact r
  · cases e.symm.trans h

theorem scanFwd_offEnd_index {p : Nat} (hp : p < s.plen) {j : Int} {d : Nat} (h : scanFwd s p = .offEnd j d) :
    j = s.plen := by
  obtain ⟨m, _, e⟩ | ⟨_, d', e⟩ := scanFwd_cases p hp <;> cases e.symm.trans h
  rfl

theorem scanBwd_offEnd_index {p : Nat} {j : Int} {d : Nat} (h : scanBwd s p = .offEnd j d) : j = -1 := by
  obtain ⟨m, _, e⟩ | ⟨_, d', e⟩ := scanBwd_cases (s := s) p <;> cases e.symm.trans h
  rfl

/-- Settles O22: the ranges of a scan from `PC`, read in the state whose `PC` is the scan's start. -/
theorem scanRegistersStayInRange : Obligations.ScanRegistersStayInRange := by
  unfold Obligations.ScanRegistersStayInRange
  intro s p hp
  refine ⟨fun j j' d d' _ high pos low => ?_, fun j j' d d' low _ pos high => ?_, fun j d h => ?_, fun j d h => ?_⟩
  · have r : FwdRange { s with pc := p } j d := ⟨pos, low, high⟩
    obtain ⟨_, _, _, _, depth⟩ := r.bounds
    exact ⟨depth, fun more => (r.more more).bounds⟩
  · have r : BwdRange { s with pc := p } j d := ⟨pos, high, low⟩
    obtain ⟨_, _, _, _, depth⟩ := r.bounds hp
    exact ⟨depth, fun more => (r.more more).bounds hp⟩
  · have r : FwdRange { s with pc := p } j d := fwdRange_of_offEnd hp h
    obtain ⟨_, _, pos, _, depth⟩ := r.bounds
    exact ⟨scanFwd_offEnd_index hp h, pos, depth⟩
  · have r : BwdRange { s with pc := p } j d := bwdRange_of_offEnd h
    obtain ⟨_, _, pos, _, depth⟩ := r.bounds hp
    exact ⟨scanBwd_offEnd_index h, pos, depth⟩

/-! ### Matching is symmetric, and a matched loop is a while loop (R114, R115) -/

/-- Where as many `b` as `c` stand in a row of bytes, no more `b` than `c` stand in its first part exactly when no more `c`
than `b` stand in the rest. -/
theorem countBytes_first_le_iff_rest_le {b c : Byte} {i k n : Nat}
    (balanced : countBytes s b i (k + n) = countBytes s c i (k + n)) :
    countBytes s b i k ≤ countBytes s c i k ↔ countBytes s c (i + k) n ≤ countBytes s b (i + k) n := by
  rw [countBytes_add, countBytes_add] at balanced
  omega

/-- The `]` that balances a `[` is balanced by it. -/
theorem FwdMatch.bwdMatch {p m : Nat} (h : FwdMatch s p m) (opens : s.progByte p = openByte) : BwdMatch s m p where
  before := h.after
  opens := opens
  balanced := h.balanced.symm
  suffixes n hn := by
    obtain ⟨k, len⟩ := Nat.exists_eq_add_of_le' hn
    have start : m - n = p + 1 + k := by have := h.after; omega
    have balanced := h.balanced.symm
    rw [len] at balanced
    rw [start]
    exact (countBytes_first_le_iff_rest_le balanced).1 (h.prefixes k (by omega))

/-- The `[` that balances a `]` of the program is balanced by it. -/
theorem BwdMatch.fwdMatch {p m : Nat} (h : BwdMatch s m p) (closes : s.progByte m = closeByte) (inside : m < s.plen) :
    FwdMatch s p m where
  after := h.before
  inside := inside
  closes := closes
  balanced := h.balanced.symm
  prefixes k hk := by
    obtain ⟨n, len⟩ := Nat.exists_eq_add_of_le hk
    have start : m - n = p + 1 + k := by have := h.before; omega
    have balanced := h.balanced
    rw [len] at balanced
    have suffix := h.suffixes n (by omega)
    rw [start] at suffix
    exact (countBytes_first_le_iff_rest_le balanced).2 suffix

/-- Settles O23: what the scans find, read from the left and from the right. -/
theorem matchingIsSymmetric : Obligations.MatchingIsSymmetric := by
  unfold Obligations.MatchingIsSymmetric
  intro s p m
  have fwd := (scanFwd_finds s p).found_iff m
  have bwd := (scanBwd_finds s m).found_iff p
  exact ⟨fun opens found => bwd.2 ((fwd.1 found).bwdMatch opens),
    fun closes inside found => fwd.2 ((bwd.1 found).fwdMatch closes inside)⟩

/-- Settles O24: each bracket jumps past the other or falls through, as the current cell says. -/
theorem matchedLoopIsWhile : Obligations.MatchedLoopIsWhile := by
  unfold Obligations.MatchedLoopIsWhile
  intro s p m hd opens h
  obtain ⟨jzFalls, jzJumps, _⟩ := forwardJump s hd
  obtain ⟨jnzFalls, jnzJumps, _⟩ := backwardJump s hd
  by_cases zero : s.cell s.dp.toNat = 0
  · simp only [if_pos zero]
    exact ⟨fun pc => ⟨_, jzJumps zero m (pc ▸ h), rfl, rfl, rfl, rfl⟩,
      fun pc => ⟨_, jnzFalls zero, congrArg (· + 1) pc, rfl, rfl, rfl⟩⟩
  · simp only [if_neg zero]
    exact ⟨fun pc => ⟨_, jzFalls zero, congrArg (· + 1) pc, rfl, rfl, rfl⟩,
      fun pc => ⟨_, jnzJumps zero p (pc ▸ h.bwdMatch opens), rfl, rfl, rfl, rfl⟩⟩

end Sys2Proof.Machine
end

section
/-!
SUPPORT. The no-operation bytes (45_nop.md): the byte a `NOP` carries plays no part in what it does, which is to retire.
-/
namespace Sys2Proof.Machine

/-- A `NOP` retires, whatever its byte (R118). -/
theorem exec_nop (b : Byte) (s : State) : exec (.nop b) s = .next s.retire := by rw [exec, execNop]

/-- Settles O28: to retire is to advance `PC`, with every other field as it was. -/
theorem nopOnlyAdvances : Obligations.NopOnlyAdvances := by
  unfold Obligations.NopOnlyAdvances
  intro b s
  rw [exec_nop, State.retire]

end Sys2Proof.Machine
end

section
/-!
SUPPORT. Exceptions and the abort (60_exceptions.md): the one form a fault leaves the state in, which instructions go out of bounds,
the abort step and its race with another step, and that `abort` plays no part outside a run and in the start clear.
-/
namespace Sys2Proof

/-- The input signals of `h` with this `abort` and this outcome of the race. -/
def HostInput.withAbort (h : HostInput) (abort stepFirst : Bool) : HostInput :=
  { h with abort := abort, stepFirst := stepFirst }

end Sys2Proof

namespace Sys2Proof.Machine

variable {s t : State} {i : Instr}

/-! ### Faults (R119, R124) -/

/-- An instruction that changes `STATE` has raised an exception, and before that has written at most the matcher's registers
(R120, R124). -/
theorem exec_raises (x : exec i s = .next t) (changed : t.state ≠ s.state) :
    ∃ c j d, t = (s.scanOn j d).raiseFault c := by
  have scan : ∀ r : ScanEnd, (s.endScan r).state ≠ s.state → ∃ c j d, s.endScan r = (s.scanOn j d).raiseFault c
    | .offEnd j d, _ => ⟨.unmatchedBracket, j, d, rfl⟩
    | .found _, found => absurd rfl found
  cases exec_effect x with
  | dpIncFault => exact ⟨.outOfBounds, s.scanJ, s.depth, rfl⟩
  | dpDecFault => exact ⟨.outOfBounds, s.scanJ, s.depth, rfl⟩
  | jz => exact scan _ changed
  | jnz => exact scan _ changed
  | _ => exact absurd rfl changed

theorem Cause.code_eq_or (c : Cause) : c.code = .faultOob ∨ c.code = .faultUnmatched := by
  cases c with
  | outOfBounds => exact .inl rfl
  | unmatchedBracket => exact .inr rfl

/-- Settles O31: each value is the one `State.raiseFault` leaves. -/
theorem faultEntry : Obligations.FaultEntry := by
  unfold Obligations.FaultEntry
  intro i s t run x ends
  obtain ⟨c, j, d, rfl⟩ := exec_raises x (by rwa [run])
  exact ⟨c.code_eq_or, rfl, rfl, rfl, rfl, rfl, rfl⟩

/-- The end of a scan is no `OutOfBounds` (R119). -/
theorem State.endScan_state_ne_faultOob (run : s.state = .running) (r : ScanEnd) : (s.endScan r).state ≠ .faultOob := by
  cases r with
  | offEnd j d => exact RunState.noConfusion
  | found j => simp [State.endScan, run]

/-- Settles O32: of the two moves only the faulting branch ends the run so, and of the other instructions none does. -/
theorem outOfBoundsCauses : Obligations.OutOfBoundsCauses := by
  unfold Obligations.OutOfBoundsCauses
  intro i s t run x
  cases exec_effect x with
  | dpIncFault last => exact iff_of_true rfl (.inl ⟨rfl, last⟩)
  | dpInc below => exact iff_of_false (by simp [run]) (by simp [below])
  | dpDecFault first => exact iff_of_true rfl (.inr ⟨rfl, congrArg BitVec.toNat first⟩)
  | dpDec above => exact iff_of_false (by simp [run]) (by simpa [← BitVec.toNat_inj] using above)
  | jz => exact iff_of_false (State.endScan_state_ne_faultOob run _) (by simp)
  | jnz => exact iff_of_false (State.endScan_state_ne_faultOob run _) (by simp)
  | _ => exact iff_of_false (by simp [run]) (by simp)

/-! ### The abort step and its race with another step (R128, R133) -/

theorem State.abortTaken_of_abort (ha : s.now.abort = true) (first : s.now.stepFirst = false ∨ s.waits = true) :
    s.abortTaken = true := by
  simpa [State.abortTaken, ha] using first

/-- A host under which the other step goes first, at an instruction that does not wait (R133). -/
theorem State.abortTaken_of_stepFirst (first : s.now.stepFirst = true) (served : s.waits = false) :
    s.abortTaken = false := by
  simp [State.abortTaken, first, served]

/-- The abort step (R128). -/
theorem step_of_abortTaken (run : s.state = .running) (hr : s.now.rst = false) (taken : s.abortTaken = true) :
    step s = .next (s.haltRun .aborted).boundary := by
  rw [step_of_running hr run, runStep, if_pos taken]
  rfl

/-- Settles O39: the abort step writes `STATE` and `PHASE` alone. -/
theorem abortStep : Obligations.AbortStep := by
  unfold Obligations.AbortStep
  intro s run hr ha first
  exact ⟨_, step_of_abortTaken run hr (State.abortTaken_of_abort ha first), (SameArch.haltRun s .aborted).trans (.boundary _)⟩

/-- A step of a run looks at `abort` and the race only for whether they make it the abort step: hosts that agree on this, on
`out_ready` and the answer now, and on the inputs later, have the same step. -/
theorem step_withScript_of_abortTaken {l : List HostInput} (run : s.state = .running) (later : l.tail = s.script.tail)
    (hr : s.now.rst = false) (hr' : (s.withScript l).now.rst = false)
    (taken : (s.withScript l).abortTaken = s.abortTaken)
    (outReady : (s.withScript l).now.outReady = s.now.outReady) (answer : (s.withScript l).answer = s.answer) :
    step (s.withScript l) = step s := by
  have past : (State.boundary ∘ (State.withScript · l)) = State.boundary ∘ (State.withScript · s.script) :=
    funext fun t => congrArg t.boundary.withScript later
  have old : runStep s = mapNext (State.withScript · s.script) (runStep s) :=
    runStep_withScript s.script rfl rfl rfl
  calc step (s.withScript l)
    _ = mapNext State.boundary (runStep (s.withScript l)) := step_of_running hr' run
    _ = mapNext (State.boundary ∘ (State.withScript · l)) (runStep s) := by
      rw [runStep_withScript l taken outReady answer, mapNext_mapNext]
    _ = mapNext State.boundary (runStep s) := by rw [past, ← mapNext_mapNext, ← old]
    _ = step s := (step_of_running hr run).symm

/-- Settles O40: one host has its abort taken; the other two have not, so their steps are the same. -/
theorem abortRaceAdmitsBothOrders : Obligations.AbortRaceAdmitsBothOrders := by
  unfold Obligations.AbortRaceAdmitsBothOrders
  intro s h rest run script hr served
  constructor
  · have taken : (s.withScript (h.withAbort true false :: rest)).abortTaken = true :=
      State.abortTaken_of_abort rfl (.inl rfl)
    exact ⟨_, step_of_abortTaken run hr taken, rfl, rfl, rfl, rfl, rfl, rfl, rfl, rfl⟩
  · have same : s.withScript (h :: rest) = s := by rw [← script]; rfl
    have raceLost : (s.withScript (h.withAbort true true :: rest)).abortTaken = false := by
      refine State.abortTaken_of_stepFirst rfl ?_
      exact (State.waits_withScript (s := s.withScript (h :: rest)) _ rfl rfl).trans (same.symm ▸ served)
    have noAbort : (s.withScript (h.withAbort false h.stepFirst :: rest)).abortTaken = false :=
      State.abortTaken_of_no_abort rfl
    exact step_withScript_of_abortTaken (s := s.withScript (h.withAbort false h.stepFirst :: rest)) run rfl hr hr
      (raceLost.trans noAbort.symm) rfl rfl

/-! ### Where `abort` is not looked at (R86, R130) -/

section
variable (h : HostInput) (rest : List HostInput) (a f : Bool)

/-- The host's step looks at `start` and the load port (R49, R74). -/
theorem State.hostStep_withAbort : (s.withScript (h.withAbort a f :: rest)).hostStep.boundary =
    (s.withScript (h :: rest)).hostStep.boundary := by
  rw [State.hostStep, State.hostStep, apply_ite State.boundary, apply_ite State.boundary, State.load_eq, State.load_eq]
  rfl

/-- Outside a run a step is a reset or the host's step. -/
theorem step_withAbort_of_not_running (n : s.state ≠ .running) :
    step (s.withScript (h.withAbort a f :: rest)) = step (s.withScript (h :: rest)) := by
  cases hr : h.rst with
  | true =>
    rw [step_of_rst (s := s.withScript (h :: rest)) hr, step_of_rst (s := s.withScript (h.withAbort a f :: rest)) hr]
    rfl
  | false =>
    rw [step_of_not_running (s := s.withScript (h :: rest)) hr n,
      step_of_not_running (s := s.withScript (h.withAbort a f :: rest)) hr n, State.hostStep_withAbort]

end

theorem cycleClear_withScript (l : List HostInput) :
    cycleClear (s.withScript l) = mapNext (fun t => t.withScript l) (cycleClear s) := by
  simp only [cycleClear, mapNext_ite]
  rfl

/-- A cycle of the clear looks at `rst` alone. -/
theorem cycle_withScript_of_clear (p : s.phase = .clear) {l l' : List HostInput} (later : l'.tail = l.tail)
    (rst : (s.withScript l').now.rst = (s.withScript l).now.rst) :
    cycle (s.withScript l') = cycle (s.withScript l) := by
  have past : ∀ t : State, (t.withScript l').tickOver = (t.withScript l).tickOver := fun t =>
    congrArg t.tickOver.withScript later
  cases hr : (s.withScript l).now.rst with
  | true =>
    rw [cycle_of_rst hr, cycle_of_rst (rst.trans hr)]
    exact congrArg _ (past s.resetBlock.forget)
  | false =>
    rw [cycle_of_no_rst hr, cycle_of_no_rst (rst.trans hr), cyclePhase_clear (s := s.withScript l) p,
      cyclePhase_clear (s := s.withScript l') p, cycleClear_withScript, cycleClear_withScript, mapNext_mapNext,
      mapNext_mapNext]
    exact congrArg (mapNext · (cycleClear s)) (funext past)

/-- Settles O41: `start` leaves the state of a run in which no instruction has been taken, and the abort step keeps it. -/
theorem abortIgnoredOutsideRun : Obligations.AbortIgnoredOutsideRun := by
  unfold Obligations.AbortIgnoredOutsideRun
  refine ⟨fun s h rest a f n => step_withAbort_of_not_running h rest a f n,
    fun s h rest a f p => cycle_withScript_of_clear p rfl rfl, ?_⟩
  intro s t n hr hs x hr' ha first
  obtain rfl : s.startRun.boundary = t := Host.Outcome.next.inj ((step_of_start n hr hs).symm.trans x)
  obtain ⟨u, y, same⟩ := abortStep s.startRun.boundary rfl hr' ha (.inl first)
  exact ⟨u, y, same.state, same.pc, same.dp, congrFun (State.cell_congr same.tape)⟩

end Sys2Proof.Machine
end

section
/-!
SUPPORT. Reset and the edges of a run (70_reset_and_hazards.md): what `rst` sets in both machines, the invariants of the state after
reset, the first step of a run, and the inputs a run looks at.
-/
namespace Sys2Proof.Machine

variable {s t : State}

/-! ### What `rst` sets (R142) -/

theorem State.outValid_of_rst (hr : s.now.rst = true) : s.outValid = false := by simp [State.outValid, hr]

theorem State.inReq_of_rst (hr : s.now.rst = true) : s.inReq = false := by simp [State.inReq, hr]

theorem State.outValid_of_halt (p : s.phase = .halt) : s.outValid = false := by simp [State.outValid, p]

theorem State.inReq_of_halt (p : s.phase = .halt) : s.inReq = false := by simp [State.inReq, p]

theorem State.status_of_idle (idle : s.state = .idle) : s.status = 0 := by
  rw [State.status, idle]
  rfl

/-- A step and a cycle differ in what they do besides the reset: the one ends at a boundary, the other forgets the transient
registers. Neither touches what `rst` sets or leaves alone. -/
theorem rst_leads_to_resetBlock (hr : s.now.rst = true) {f : State → Host.Outcome State Fault Refusal}
    (hf : f = step ∨ f = cycle) : ∃ t, f s = .next t ∧ SameArch s.resetBlock t ∧ t.phase = .halt := by
  obtain rfl | rfl := hf
  · exact ⟨_, step_of_rst hr, .boundary _, rfl⟩
  · exact ⟨_, cycle_of_rst hr, ⟨rfl, rfl, rfl, rfl, rfl, rfl, rfl, rfl⟩, rfl⟩

/-- Settles O33: the registers are those of `State.resetBlock`, and the ports follow from `rst`, `STATE` and `PHASE`. -/
theorem resetSetsState : Obligations.ResetSetsState := by
  unfold Obligations.ResetSetsState
  intro s hr
  refine ⟨State.outValid_of_rst hr, State.inReq_of_rst hr, fun f hf => ?_⟩
  obtain ⟨t, x, same, halt⟩ := rst_leads_to_resetBlock hr hf
  exact ⟨t, x, same.state, halt, same.pc, same.dp, same.plen, same.prog, same.tape, State.status_of_idle same.state,
    State.outValid_of_halt halt, State.inReq_of_halt halt⟩

/-! ### The state after reset -/

/-- Settles O34: the register values are those `State.reset` names, and its program store lists no byte. -/
theorem resetStateValues : Obligations.ResetStateValues := by
  unfold Obligations.ResetStateValues
  exact ⟨rfl, rfl, rfl, rfl, rfl, State.status_of_idle rfl, fun _ => rfl⟩

/-- Settles O51: the stores and widths of the state after reset, which is no state of a run and whose tape is unspecified. -/
theorem resetMeetsInvariant : Obligations.ResetMeetsInvariant where
  stores := reset_storesOk
  widths := reset_widthsOk
  pcLe run := nomatch run
  phaseEq := rfl
  known := iff_of_false (Option.some_ne_none _) (not_not.2 rfl)

/-- At a boundary the cycle-level invariant asks for nothing that the instruction-level one does not give. -/
theorem Inv.cycleInv (h : Inv s) : CycleInv s := .of_boundary h.stores h.widths h.phaseEq h.pcLe

/-- Settles O54: the state after reset is at a boundary. -/
theorem resetMeetsCycleInvariant : Obligations.ResetMeetsCycleInvariant := Inv.cycleInv resetMeetsInvariant

/-! ### The first step of a run (R145, R146) -/

/-- Settles O36: after `start` both cursors are 0, so the fetch reads byte 0 where there is one, and else the DONE step is
taken. -/
theorem runEntersAtZero : Obligations.RunEntersAtZero := by
  unfold Obligations.RunEntersAtZero
  intro s t n hr hs x hr' ha
  obtain rfl : s.startRun.boundary = t := Host.Outcome.next.inj ((step_of_start n hr hs).symm.trans x)
  have goesOn : s.startRun.boundary.abortTaken = false := State.abortTaken_of_no_abort ha
  constructor
  · intro hasByte
    exact ⟨step_of_fetched rfl hr' goesOn hasByte, rfl⟩
  · intro empty
    exact ⟨_, step_of_end rfl hr' goesOn empty.le, rfl, rfl, rfl, fun _ => rfl⟩

/-! ### The inputs a run looks at (R148) -/

/-- The channel's answer is one of `in_valid`, `in_data` and `in_eof` (R101). -/
theorem State.answer_congr (inValid : t.now.inValid = s.now.inValid) (inData : t.now.inData = s.now.inData)
    (inEof : t.now.inEof = s.now.inEof) : t.answer = s.answer := by
  rw [State.answer, State.answer, inValid, inData, inEof]

/-- Settles O44: the two hosts agree in all that `step_withScript` asks for. -/
theorem runIgnoresLoadAndStart : Obligations.RunIgnoresLoadAndStart := by
  unfold Obligations.RunIgnoresLoadAndStart
  intro s h h' rest run rst abort stepFirst outReady inValid inData inEof
  exact step_withScript (s := s.withScript (h :: rest)) run rfl rst abort stepFirst outReady
    (State.answer_congr inValid inData inEof)

end Sys2Proof.Machine
end
